-- ==== Sys2Proof/Word.lean ====
section
/-! DEFINITION. Bytes, byte strings and the integer widths of 00_scope R16 and R17, and the fixed sets of names that
command operands are drawn from: key slots (10_state R23), version selectors (30_encoding R74) and the header
descriptor HDESC (30_encoding R82). -/

namespace Sys2Proof

/-- An unsigned 8-bit value (R16). -/
abbrev Byte := BitVec 8

/-- A finite sequence of bytes (R16). -/
abbrev Bytes := List Byte

/-- `Byte^n`: the byte strings of length `n` (R16). -/
abbrev ByteN (n : Nat) := { b : Bytes // b.length = n }

/-- `u16` (R17). -/
abbrev U16 := BitVec 16

/-- `u32` (R17). An `i32` is held as the same 32 bits and read with `BitVec.toInt`. -/
abbrev U32 := BitVec 32

/-- One block of the cipher: `BLOCK_BYTES = 16` bytes (R7). -/
abbrev Block := ByteN 16

/-- The four key slots (R23). -/
inductive KeySlot where
  | master
  | visit
  | session
  | none
  deriving DecidableEq, Repr

/-- The slots ECB.ENC and ECB.DEC admit: MASTER, VISIT, SESSION (R23, R83). -/
inductive CipherSlot where
  | master
  | visit
  | session
  deriving DecidableEq, Repr

/-- The slots FRM.ENC, SIG.GEN and SIG.CHK admit: SESSION, NONE (R23, R83). -/
inductive SignSlot where
  | session
  | none
  deriving DecidableEq, Repr

/-- The version selector `VSEL` (R74, R81). -/
inductive VersionSel where
  | login
  | session
  deriving DecidableEq, Repr

/-- The header descriptor `HDESC` (R82). `sid` is an `i32` in two's complement (R17): its integer is `sid.toInt`. -/
structure Hdesc where
  plen : U16
  cmd : U16
  sid : U32
  ser : U16
  dir : Byte
  err : Byte
  ctl : U16
  uid : U32
  ts : U32
  deriving DecidableEq, Repr

end Sys2Proof
end

