-- ==== Sys2Proof/Machine/Bytes.lean ====
section
/-! DEFINITION. Slices of byte strings (00_scope R16) and the little-endian conversions (R17), the only byte order
E7PE has (20_memory R52, R53). -/

namespace Sys2Proof

/-- `B[i]` (R16); `0` outside the string, where the spec leaves it undefined and no rule reads. -/
def byteAt (b : Bytes) (i : Nat) : Byte := b.getD i 0

/-- `B[i..j)` (R16), for `i <= j <= len(B)`. -/
def slice (b : Bytes) (i j : Nat) : Bytes := (b.drop i).take (j - i)

/-- `rep(v, n)` (R16). -/
def rep (v : Byte) (n : Nat) : Bytes := List.replicate n v

/-- `len(B) < n`, without walking further than `n` bytes. -/
def lacks : Bytes → Nat → Bool
  | _, 0 => false
  | [], _ + 1 => true
  | _ :: b, n + 1 => lacks b n

/-- `le16(B)` for `B : Byte^2` (R17). -/
def le16 (b : Bytes) : U16 := byteAt b 1 ++ byteAt b 0

/-- `le32(B)` for `B : Byte^4` (R17). -/
def le32 (b : Bytes) : U32 := byteAt b 3 ++ byteAt b 2 ++ byteAt b 1 ++ byteAt b 0

/-- `le16bytes(v)` (R17). -/
def le16bytes (v : U16) : Bytes := [v.extractLsb' 0 8, v.extractLsb' 8 8]

/-- `le32bytes(v)` (R17). -/
def le32bytes (v : U32) : Bytes :=
  [v.extractLsb' 0 8, v.extractLsb' 8 8, v.extractLsb' 16 8, v.extractLsb' 24 8]

/-- `le32_s(B)`: the signed reading of four bytes (R17). -/
def le32s (b : Bytes) : Int := (le32 b).toInt

/-- `le32bytes_s(v)`: the bytes of `v mod 2^32` (R17). -/
def le32bytesS (v : Int) : Bytes := le32bytes (BitVec.ofInt 32 v)

/-- A natural number below `2^16` as the two bytes of a `u16` field. -/
def natBytes16 (n : Nat) : Bytes := le16bytes (BitVec.ofNat 16 n)

/-- A natural number below `2^32` as the four bytes of a `u32` field. -/
def natBytes32 (n : Nat) : Bytes := le32bytes (BitVec.ofNat 32 n)

end Sys2Proof
end

