-- ==== Sys2Proof/Config.lean ====
section
/-! DEFINITION. The configuration (00_scope R7 to R13): what is fixed for the machine and no command changes. The
parameters the spec leaves OPEN are the fields of `Params`; what it assumes of them is `Params.Legal`; the machine's own
configuration is the constant `cfg`, which has no body. The capacities are the spec's DECIDED values. -/

namespace Sys2Proof

/-- The OPEN parameters (R8 to R12). -/
structure Params where
  /-- `KEY_LENS`, the set of legal key lengths in bytes (R8). -/
  keyLens : List Nat
  /-- `Enc` (R8). -/
  enc : Bytes → Block → Block
  /-- `Dec` (R8). -/
  dec : Bytes → Block → Block
  /-- `K_MASTER` (R9). -/
  kMaster : Bytes
  /-- `K_VISIT` (R9). -/
  kVisit : Bytes
  /-- `START_MARKER` (R10). -/
  startMarker : ByteN 2
  /-- `END_MARKER` (R10). -/
  endMarker : ByteN 2
  /-- `VERSION_LOGIN` (R11). -/
  versionLogin : U16
  /-- `VERSION_SESSION` (R11). -/
  versionSession : U16
  /-- `SIG data key` (R12): a function, and nothing more is known of it. -/
  sig : Bytes → Bytes → ByteN 4

/-- What the spec assumes of the OPEN parameters, and nothing else. -/
structure Params.Legal (p : Params) : Prop where
  /-- `KEY_LENS` is non-empty (R8). -/
  keyLens_nonempty : p.keyLens ≠ []
  /-- Every key length is between 1 and 255 (R8). -/
  keyLens_range : ∀ n ∈ p.keyLens, 1 ≤ n ∧ n ≤ 255
  /-- First half of `CIPHER_INV` (R8). -/
  dec_enc : ∀ k b, k.length ∈ p.keyLens → p.dec k (p.enc k b) = b
  /-- Second half of `CIPHER_INV` (R8). -/
  enc_dec : ∀ k b, k.length ∈ p.keyLens → p.enc k (p.dec k b) = b
  /-- `K_MASTER` has a legal length (R9). -/
  kMaster_length : p.kMaster.length ∈ p.keyLens
  /-- `K_VISIT` has a legal length (R9). -/
  kVisit_length : p.kVisit.length ∈ p.keyLens
  /-- The two fixed keys differ (R9; log 4). -/
  kMaster_ne_kVisit : p.kMaster ≠ p.kVisit
  /-- The two versions differ (R11; log 4). -/
  versions_ne : p.versionLogin ≠ p.versionSession

/-- `b XOR k` bytewise, the stand-in cipher of test configuration T0 (95_test_vectors section 1). -/
def xorBlock (k : Bytes) (b : Block) : Block :=
  ⟨List.zipWith (· ^^^ ·) b.1 (k ++ rep 0 16), by simp [rep, b.2]⟩

/-- The sum of all bytes of data and key modulo 2^32, the stand-in signature of T0 (95_test_vectors section 1). -/
def sumSig (data key : Bytes) : ByteN 4 :=
  ⟨natBytes32 ((data ++ key).foldl (fun n b => n + b.toNat) 0), rfl⟩

/-- `v, v + 1, ..., v + n - 1`, the shape of T0's synthetic keys. -/
def countUp : Nat → Byte → Bytes
  | 0, _ => []
  | n + 1, v => v :: countUp n (v + 1)

/-- The spec's synthetic test configuration T0 (95_test_vectors section 1). It is used in tests, and it shows that
`Params.Legal` can be met; no value of it is a value of the machine's own `cfg`. -/
def t0 : Params where
  keyLens := [16]
  enc := xorBlock
  dec := xorBlock
  kMaster := countUp 16 0xA0
  kVisit := countUp 16 0xB0
  startMarker := ⟨[0x53, 0x54], rfl⟩
  endMarker := ⟨[0x45, 0x4E], rfl⟩
  versionLogin := 1
  versionSession := 2
  sig := sumSig

theorem zipWith_xor_cancel : ∀ (b k : Bytes), b.length ≤ k.length →
    List.zipWith (· ^^^ ·) (List.zipWith (· ^^^ ·) b k) k = b
  | [], _, _ => by simp
  | x :: b, [], h => by simp at h
  | x :: b, y :: k, h => by
    have ih := zipWith_xor_cancel b k (by simpa using h)
    simp [ih]

theorem xorBlock_cancel (k : Bytes) (b : Block) : xorBlock k (xorBlock k b) = b :=
  Subtype.ext (zipWith_xor_cancel b.1 _ (by simp [rep, b.2]))

theorem t0_legal : t0.Legal where
  keyLens_nonempty := by decide
  keyLens_range := by decide
  dec_enc k b _ := xorBlock_cancel k b
  enc_dec k b _ := xorBlock_cancel k b
  kMaster_length := by decide
  kVisit_length := by decide
  kMaster_ne_kVisit := by decide
  versions_ne := by decide

/-- A configuration: the OPEN parameters together with what the spec assumes of them. The field defaults (T0) only show
that the type has a member; they set no value of `cfg`. -/
structure Config where
  params : Params := t0
  legal : params.Legal := by exact t0_legal
  deriving Inhabited

/-- Test configuration T0 as a `Config`. -/
def t0Config : Config := ⟨t0, t0_legal⟩

/-- The machine's configuration. It has no body: no proof can see any value of it, so what is proved of the machine holds
for every configuration that meets `Params.Legal` (R8 to R12; log 1). -/
opaque cfg : Config

/-- `BLOCK_BYTES` (R7). -/
def blockBytes : Nat := 16

/-- `FB_CAP` (R13). -/
def fbCap : Nat := 131072

/-- `MAX_DATA` (R13). -/
def maxData : Nat := 65535

/-- `MAX_PT` (R13). -/
def maxPt : Nat := 65519

/-- `MAX_PAYLOAD` (R13). -/
def maxPayload : Nat := 65491

/-- `MIN_FRAME` (R13). -/
def minFrame : Nat := 44

/-- `HDR_BYTES` (R13). -/
def hdrBytes : Nat := 40

/-- `SIG_BYTES` (R13). -/
def sigBytes : Nat := 4

end Sys2Proof
end

