-- ==== Sys2Proof/Syntax.lean ====
section
/-! DEFINITION. The fourteen commands, one constructor per row of spec/opcode_table.json (30_encoding R83, R86), with the
operands the packet carries (R80 to R82). DLEN is the length of the data operand. -/

namespace Sys2Proof

/-- The commands of E7PE (R86). -/
inductive Instr where
  /-- ECB.ENC: key slot, plaintext (R101). -/
  | ecbEnc (slot : CipherSlot) (data : Bytes)
  /-- ECB.DEC: key slot, ciphertext (R102). -/
  | ecbDec (slot : CipherSlot) (data : Bytes)
  /-- HDR.ENC: version selector, header descriptor (R120). -/
  | hdrEnc (ver : VersionSel) (h : Hdesc)
  /-- FRM.ENC: signing slot, version selector, header descriptor, payload (R121). -/
  | frmEnc (slot : SignSlot) (ver : VersionSel) (h : Hdesc) (data : Bytes)
  /-- FRM.DEC: a frame (R122). -/
  | frmDec (data : Bytes)
  /-- SIG.GEN: signing slot, bytes to sign (R141). -/
  | sigGen (slot : SignSlot) (data : Bytes)
  /-- SIG.CHK: signing slot, a frame (R142). -/
  | sigChk (slot : SignSlot) (data : Bytes)
  /-- FR.PUSH: received bytes (R151). -/
  | frPush (data : Bytes)
  /-- FR.POP (R154). -/
  | frPop
  /-- FR.FEED: received bytes (R158). -/
  | frFeed (data : Bytes)
  /-- FR.RST (R159). -/
  | frRst
  /-- KEY.LOAD: key bytes (R170). -/
  | keyLoad (data : Bytes)
  /-- KEY.CLR (R171). -/
  | keyClr
  /-- STAT.RD (R172). -/
  | statRd
  deriving DecidableEq, Repr

end Sys2Proof
end

