-- ==== Sys2Proof/WellFormed.lean ====
section
/-! DEFINITION. Which terms of `Instr` a legal packet can carry: the DLEN column of 30_encoding R83 and the PLEN = DLEN
rule of R87. The KSEL and VSEL columns are in the operand types. -/

namespace Sys2Proof

/-- The DATA operand of a command; empty for a command that has none (R83). -/
def Instr.data : Instr → Bytes
  | .ecbEnc _ d => d
  | .ecbDec _ d => d
  | .hdrEnc _ _ => []
  | .frmEnc _ _ _ d => d
  | .frmDec d => d
  | .sigGen _ d => d
  | .sigChk _ d => d
  | .frPush d => d
  | .frPop => []
  | .frFeed d => d
  | .frRst => []
  | .keyLoad d => d
  | .keyClr => []
  | .statRd => []

/-- The largest DLEN the command admits (R83). -/
def Instr.maxDlen : Instr → Nat
  | .ecbEnc _ _ => maxPt
  | .ecbDec _ _ => maxData
  | .hdrEnc _ _ => 0
  | .frmEnc _ _ _ _ => maxData
  | .frmDec _ => maxData
  | .sigGen _ _ => maxData
  | .sigChk _ _ => maxData
  | .frPush _ => maxData
  | .frPop => 0
  | .frFeed _ => maxData
  | .frRst => 0
  | .keyLoad _ => maxData
  | .keyClr => 0
  | .statRd => 0

/-- `PLEN = DLEN`, asked of FRM.ENC alone (R83, R87). -/
def Instr.plenAgrees : Instr → Bool
  | .frmEnc _ _ h d => h.plen.toNat == d.length
  | .ecbEnc _ _ | .ecbDec _ _ | .hdrEnc _ _ | .frmDec _ | .sigGen _ _ | .sigChk _ _ | .frPush _ | .frPop
  | .frFeed _ | .frRst | .keyLoad _ | .keyClr | .statRd => true

/-- A command some legal packet carries (R83, R87). -/
def Instr.wellFormed (i : Instr) : Bool := decide (i.data.length ≤ i.maxDlen) && i.plenAgrees

end Sys2Proof
end

