-- ==== Sys2Proof/Decode.lean ====
section
/-! DEFINITION. The command packet (30_encoding R80 to R89): the opcode map, `decode_cmd`, which is total on byte strings
and refuses by name, and the encoder written from the same tables. -/

namespace Sys2Proof

/-- The fourteen opcodes (R86). -/
inductive Opcode where
  | ecbEnc | ecbDec | hdrEnc | frmEnc | frmDec | sigGen | sigChk | frPush | frPop | frFeed | frRst | keyLoad | keyClr | statRd
  deriving DecidableEq, Repr

/-- The checks of `decode_cmd` that make a packet illegal (R87, R89). Every one of them is answered with `E_ILLEGAL`. -/
inductive Illegal where
  /-- `len(C) < 4`. -/
  | shortPacket
  /-- `OPC` is not one of the fourteen. -/
  | unknownOpcode
  /-- `len(C) != 4 + A + DLEN`. -/
  | wrongLength
  /-- A bit of `MOD[7:3]` is set. -/
  | reservedMod
  /-- `KSEL` is outside the opcode's column of R83. -/
  | keySlot
  /-- `VSEL = 1` where the column of R83 says 0. -/
  | versionSelector
  /-- `DLEN` is outside the opcode's column of R83. -/
  | dataLength
  /-- FRM.ENC with `PLEN != DLEN`. -/
  | payloadLength
  deriving DecidableEq, Repr

/-- The opcode numbers (R86). -/
def Opcode.code : Opcode → Byte
  | .ecbEnc => 0x10
  | .ecbDec => 0x11
  | .hdrEnc => 0x20
  | .frmEnc => 0x21
  | .frmDec => 0x22
  | .sigGen => 0x30
  | .sigChk => 0x31
  | .frPush => 0x40
  | .frPop => 0x41
  | .frFeed => 0x42
  | .frRst => 0x43
  | .keyLoad => 0x50
  | .keyClr => 0x51
  | .statRd => 0x52

/-- All fourteen, in the order of R86. -/
def Opcode.all : List Opcode :=
  [.ecbEnc, .ecbDec, .hdrEnc, .frmEnc, .frmDec, .sigGen, .sigChk, .frPush, .frPop, .frFeed, .frRst, .keyLoad, .keyClr, .statRd]

/-- The opcode a first byte names, if any (R86). -/
def Opcode.ofByte (b : Byte) : Option Opcode := Opcode.all.find? (fun o => o.code == b)

/-- `A(OPC)`: the length of the argument block (R80). -/
def Opcode.argLen : Opcode → Nat
  | .hdrEnc | .frmEnc => 22
  | .ecbEnc | .ecbDec | .frmDec | .sigGen | .sigChk | .frPush | .frPop | .frFeed | .frRst | .keyLoad | .keyClr | .statRd => 0

/-- The "match" column of the opcode table, over the first four packet bytes as a little-endian u32 (R86). -/
def Opcode.tableMatch : Opcode → U32
  | .ecbEnc => 0x00000010
  | .ecbDec => 0x00000011
  | .hdrEnc => 0x00000020
  | .frmEnc => 0x00000221
  | .frmDec => 0x00000022
  | .sigGen => 0x00000230
  | .sigChk => 0x00000231
  | .frPush => 0x00000040
  | .frPop => 0x00000041
  | .frFeed => 0x00000042
  | .frRst => 0x00000043
  | .keyLoad => 0x00000050
  | .keyClr => 0x00000051
  | .statRd => 0x00000052

/-- The "mask" column of the opcode table (R86). -/
def Opcode.tableMask : Opcode → U32
  | .ecbEnc | .ecbDec => 0x0000FCFF
  | .hdrEnc => 0xFFFFFBFF
  | .frmEnc => 0x0000FAFF
  | .frmDec | .frPush | .frFeed | .keyLoad => 0x0000FFFF
  | .sigGen | .sigChk => 0x0000FEFF
  | .frPop | .frRst | .keyClr | .statRd => 0xFFFFFFFF

/-- `W`: the first four packet bytes as a little-endian u32 (R86). -/
def packetWord (c : Bytes) : U32 := le32 (slice c 0 4)

/-- The table row `op` is selected by `W` (R86; the row's constraints are those parts of R83 a mask cannot express). -/
def Opcode.selects (op : Opcode) (w : U32) : Bool := (w &&& op.tableMask) == op.tableMatch

/-- The four slots' `KSEL` numbers (R23, R81). -/
def KeySlot.ksel : KeySlot → BitVec 2
  | .master => 0
  | .visit => 1
  | .session => 2
  | .none => 3

/-- A cipher command's slot among the four (R23). -/
def CipherSlot.slot : CipherSlot → KeySlot
  | .master => .master
  | .visit => .visit
  | .session => .session

/-- A signing command's slot among the four (R23). -/
def SignSlot.slot : SignSlot → KeySlot
  | .session => .session
  | .none => .none

/-- `KSEL` of a cipher command; 3 is not admitted (R83). -/
def CipherSlot.ofKsel (k : BitVec 2) : Option CipherSlot :=
  if k = 0 then some .master else if k = 1 then some .visit else if k = 2 then some .session else none

/-- `KSEL` of a signing command; 0 and 1 are not admitted (R83). -/
def SignSlot.ofKsel (k : BitVec 2) : Option SignSlot :=
  if k = 2 then some .session else if k = 3 then some SignSlot.none else Option.none

/-- `VSEL`: 0 login, 1 session (R81). -/
def VersionSel.vsel : VersionSel → BitVec 1
  | .login => 0
  | .session => 1

/-- The selector a `VSEL` bit names (R81). -/
def VersionSel.ofVsel (v : BitVec 1) : VersionSel := if v = 0 then .login else .session

/-- The 22 bytes of `HDESC` (R82). -/
def Hdesc.bytes (h : Hdesc) : Bytes :=
  le16bytes h.plen ++ le16bytes h.cmd ++ le32bytes h.sid ++ le16bytes h.ser ++ [h.dir] ++ [h.err] ++ le16bytes h.ctl
    ++ le32bytes h.uid ++ le32bytes h.ts

/-- The fields of a 22-byte argument block (R82). -/
def Hdesc.ofBytes (a : Bytes) : Hdesc where
  plen := le16 (slice a 0 2)
  cmd := le16 (slice a 2 4)
  sid := le32 (slice a 4 8)
  ser := le16 (slice a 8 10)
  dir := byteAt a 10
  err := byteAt a 11
  ctl := le16 (slice a 12 14)
  uid := le32 (slice a 14 18)
  ts := le32 (slice a 18 22)

/-- `r` where the column of R83 admits `KSEL = 0` only. -/
def needKsel0 (ksel : BitVec 2) (r : Except Illegal Instr) : Except Illegal Instr :=
  if ksel ≠ 0 then .error .keySlot else r

/-- `r` where the column of R83 admits `VSEL = 0` only. -/
def needVsel0 (vsel : BitVec 1) (r : Except Illegal Instr) : Except Illegal Instr :=
  if vsel ≠ 0 then .error .versionSelector else r

/-- `r` where the column of R83 admits `DLEN` up to `n` only. -/
def needDlen (n : Nat) (data : Bytes) (r : Except Illegal Instr) : Except Illegal Instr :=
  if data.length > n then .error .dataLength else r

/-- The row of R83 for a cipher command. -/
def withCipherSlot (ksel : BitVec 2) (r : CipherSlot → Except Illegal Instr) : Except Illegal Instr :=
  match CipherSlot.ofKsel ksel with
  | none => .error .keySlot
  | some k => r k

/-- The row of R83 for a signing command. -/
def withSignSlot (ksel : BitVec 2) (r : SignSlot → Except Illegal Instr) : Except Illegal Instr :=
  match SignSlot.ofKsel ksel with
  | none => .error .keySlot
  | some k => r k

/-- The last checks of `decode_cmd`: what R83 admits for the opcode, and `PLEN = DLEN` of FRM.ENC (R89). `data` has
length `DLEN`. -/
def decodeBody (op : Opcode) (ksel : BitVec 2) (vsel : BitVec 1) (arg data : Bytes) : Except Illegal Instr :=
  match op with
  | .ecbEnc => withCipherSlot ksel fun k => needVsel0 vsel <| needDlen maxPt data <| .ok (.ecbEnc k data)
  | .ecbDec => withCipherSlot ksel fun k => needVsel0 vsel <| .ok (.ecbDec k data)
  | .hdrEnc => needKsel0 ksel <| needDlen 0 data <| .ok (.hdrEnc (.ofVsel vsel) (.ofBytes arg))
  | .frmEnc => withSignSlot ksel fun k =>
      if (le16 (slice arg 0 2)).toNat ≠ data.length then .error .payloadLength
      else .ok (.frmEnc k (.ofVsel vsel) (.ofBytes arg) data)
  | .frmDec => needKsel0 ksel <| needVsel0 vsel <| .ok (.frmDec data)
  | .sigGen => withSignSlot ksel fun k => needVsel0 vsel <| .ok (.sigGen k data)
  | .sigChk => withSignSlot ksel fun k => needVsel0 vsel <| .ok (.sigChk k data)
  | .frPush => needKsel0 ksel <| needVsel0 vsel <| .ok (.frPush data)
  | .frPop => needKsel0 ksel <| needVsel0 vsel <| needDlen 0 data <| .ok .frPop
  | .frFeed => needKsel0 ksel <| needVsel0 vsel <| .ok (.frFeed data)
  | .frRst => needKsel0 ksel <| needVsel0 vsel <| needDlen 0 data <| .ok .frRst
  | .keyLoad => needKsel0 ksel <| needVsel0 vsel <| .ok (.keyLoad data)
  | .keyClr => needKsel0 ksel <| needVsel0 vsel <| needDlen 0 data <| .ok .keyClr
  | .statRd => needKsel0 ksel <| needVsel0 vsel <| needDlen 0 data <| .ok .statRd

/-- `DLEN`: bytes 2 and 3 of a packet (R80). -/
def dlenOf (c : Bytes) : Nat := (le16 (slice c 2 4)).toNat

/-- `decode_cmd(C)` (R89), its checks in the order written there. -/
def decodeCmd (c : Bytes) : Except Illegal Instr :=
  if c.length < 4 then .error .shortPacket
  else match Opcode.ofByte (byteAt c 0) with
  | none => .error .unknownOpcode
  | some op =>
    if c.length ≠ 4 + op.argLen + dlenOf c then .error .wrongLength
    else if (byteAt c 1).extractLsb' 3 5 ≠ 0 then .error .reservedMod
    else decodeBody op ((byteAt c 1).extractLsb' 0 2) ((byteAt c 1).extractLsb' 2 1)
      (slice c 4 (4 + op.argLen)) (c.drop (4 + op.argLen))

/-- The opcode of a command (R86). -/
def Instr.opcode : Instr → Opcode
  | .ecbEnc _ _ => .ecbEnc
  | .ecbDec _ _ => .ecbDec
  | .hdrEnc _ _ => .hdrEnc
  | .frmEnc _ _ _ _ => .frmEnc
  | .frmDec _ => .frmDec
  | .sigGen _ _ => .sigGen
  | .sigChk _ _ => .sigChk
  | .frPush _ => .frPush
  | .frPop => .frPop
  | .frFeed _ => .frFeed
  | .frRst => .frRst
  | .keyLoad _ => .keyLoad
  | .keyClr => .keyClr
  | .statRd => .statRd

/-- `KSEL` of a command's packet: its slot, 0 where the opcode uses none (R81). -/
def Instr.ksel : Instr → BitVec 2
  | .ecbEnc k _ => k.slot.ksel
  | .ecbDec k _ => k.slot.ksel
  | .frmEnc k _ _ _ => k.slot.ksel
  | .sigGen k _ => k.slot.ksel
  | .sigChk k _ => k.slot.ksel
  | .hdrEnc _ _ | .frmDec _ | .frPush _ | .frPop | .frFeed _ | .frRst | .keyLoad _ | .keyClr | .statRd => 0

/-- `VSEL` of a command's packet, 0 where the opcode uses none (R81). -/
def Instr.vsel : Instr → BitVec 1
  | .hdrEnc v _ => v.vsel
  | .frmEnc _ v _ _ => v.vsel
  | .ecbEnc _ _ | .ecbDec _ _ | .frmDec _ | .sigGen _ _ | .sigChk _ _ | .frPush _ | .frPop | .frFeed _ | .frRst
  | .keyLoad _ | .keyClr | .statRd => 0

/-- The argument block of a command's packet (R80, R82). -/
def Instr.arg : Instr → Bytes
  | .hdrEnc _ h => h.bytes
  | .frmEnc _ _ h _ => h.bytes
  | .ecbEnc _ _ | .ecbDec _ _ | .frmDec _ | .sigGen _ _ | .sigChk _ _ | .frPush _ | .frPop | .frFeed _ | .frRst
  | .keyLoad _ | .keyClr | .statRd => []

/-- The `MOD` byte with reserved bits 0 (R81). -/
def modByte (ksel : BitVec 2) (vsel : BitVec 1) : Byte := (0 : BitVec 5) ++ vsel ++ ksel

/-- The packet of a command (R80). -/
def encode (i : Instr) : Bytes :=
  [i.opcode.code, modByte i.ksel i.vsel] ++ natBytes16 i.data.length ++ i.arg ++ i.data

/-- `n` bytes of a number, least significant first. -/
def bytesOfNat : Nat → Nat → Bytes
  | 0, _ => []
  | n + 1, w => BitVec.ofNat 8 w :: bytesOfNat n (w / 256)

/-- The packet whose first bits are the `nbits` low bits of `w`, numbered as the opcode table numbers them (R86), and whose
other bytes, as many as its `OPC` and `DLEN` ask for, are zero (log 11). -/
def tablePacket (nbits w : Nat) : Bytes :=
  let v := w % 2 ^ nbits
  let a := match Opcode.ofByte (BitVec.ofNat 8 v) with
    | none => 0
    | some op => op.argLen
  bytesOfNat (4 + a + (v / 2 ^ 16) % 2 ^ 16) v

/-- The command this decoder reads from a packet given by its bits (see `tablePacket`). -/
def decodeTableWord (nbits w : Nat) : Option Instr :=
  match decodeCmd (tablePacket nbits w) with
  | .ok i => some i
  | .error _ => none

end Sys2Proof
end

