-- ==== Sys2Proof/Machine/State.lean ====
section
/-! DEFINITION. The state of E7PE (10_state R22 to R29): the framer buffer, the session key and its valid bit, the FATAL
latch and LAST_ERR; with the command port's two sides as plain data (the model's own fields, log 2); and the value of
all of it after reset (R31). -/

namespace Sys2Proof.Machine

/-- The eleven status codes (60_exceptions R180). -/
inductive Status where
  | ok
  | needMore
  | illegal
  | fatal
  | cryptoKeylen
  | cryptoBlklen
  | cryptoPad
  | keyLocked
  | framingLen
  | framingOversize
  | framingOverflow
  deriving DecidableEq, Repr

/-- A response packet by its fields (30_encoding R84); RLEN is the length of `rdata` (log 7). -/
structure Response where
  /-- `STS`. -/
  sts : Status
  /-- `FLG`. -/
  flg : Byte
  /-- `RES`. -/
  res : Bytes
  /-- `RDATA`. -/
  rdata : Bytes
  deriving DecidableEq, Repr

/-- What the outside presents to E7PE: a command packet, which may be any byte string (30_encoding R80), or reset
(70_reset R200). -/
inductive PortEvent where
  | packet (c : Bytes)
  | reset
  deriving DecidableEq, Repr

/-- The state (10_state R22, R24, R26, R27), and the port. -/
structure State where
  /-- `FB`, the framer buffer, oldest byte first (R22). -/
  fb : Bytes
  /-- `KS`, the session key (R24). -/
  ks : Bytes
  /-- `KS_VALID` (R24). -/
  ksValid : Bool
  /-- `FATAL`, the fatal-error latch (R26). -/
  fatal : Bool
  /-- `LAST_ERR` (R27). -/
  lastErr : Byte
  /-- The events the outside will present, the next one first (the model's own field, log 2). -/
  inbox : List PortEvent
  /-- The responses delivered so far, oldest first (the model's own field, log 2). -/
  outbox : List Response
  deriving DecidableEq, Repr

/-- Why a step stops with a fault. There is no constructor: E7PE has no traps, and its step is total on every byte string
offered as a packet (00_scope R3; 60_exceptions, opening). An error is a status in a response, which is a next state. -/
inductive Fault where
  deriving DecidableEq, Repr

/-- Why a step has no meaning. -/
inductive Refusal where
  /-- Raised by an arm of `exec` whose instruction has no meaning yet. No arm raises it: all fourteen have theirs. Safe. -/
  | notModelled (mnemonic : String)
  deriving DecidableEq, Repr

/-- The state after reset (10_state R31, 70_reset R200), with nothing on the port (log 2). -/
def State.reset : State where
  fb := []
  ks := []
  ksValid := false
  fatal := false
  lastErr := 0x00
  inbox := []
  outbox := []

/-- `FB <- b`. -/
def State.setFb (b : Bytes) (s : State) : State := { s with fb := b }

/-- `KS <- k; KS_VALID <- v`. -/
def State.setKey (k : Bytes) (v : Bool) (s : State) : State := { s with ks := k, ksValid := v }

/-- `LAST_ERR <- e; FATAL <- f`. -/
def State.setErr (e : Byte) (f : Bool) (s : State) : State := { s with lastErr := e, fatal := f }

/-- The outside's remaining events become `q`. -/
def State.setInbox (q : List PortEvent) (s : State) : State := { s with inbox := q }

/-- One more response is delivered. -/
def State.deliver (r : Response) (s : State) : State := { s with outbox := s.outbox ++ [r] }

end Sys2Proof.Machine
end

