-- ==== Sys2Proof/Machine/Flags.lean ====
section
/-! DEFINITION. Status codes and their classes (60_exceptions R180, R186), the FLAGS byte and the STAT image (10_state
R28), and the response packet's bytes (30_encoding R84). E7PE has no arithmetic flags. -/

namespace Sys2Proof.Machine

/-- The `STS` byte (R180). -/
def Status.code : Status → Byte
  | .ok => 0x00
  | .needMore => 0x01
  | .illegal => 0x10
  | .fatal => 0x11
  | .cryptoKeylen => 0x20
  | .cryptoBlklen => 0x21
  | .cryptoPad => 0x22
  | .keyLocked => 0x23
  | .framingLen => 0x30
  | .framingOversize => 0x31
  | .framingOverflow => 0x32

/-- An error status: a code from `0x10` up (R180). -/
def Status.isError (e : Status) : Bool := decide (0x10 ≤ e.code.toNat)

/-- The fatal errors: `E_CRYPTO_KEYLEN`, `E_CRYPTO_BLKLEN` and no other (R186). -/
def Status.isFatal (e : Status) : Bool := e == .cryptoKeylen || e == .cryptoBlklen

/-- `FLAGS`: bit 0 `KS_VALID`, bit 1 `FATAL`, bits 7:2 zero (R28). -/
def flagsByte (s : State) : Byte := (0 : BitVec 6) ++ BitVec.ofBool s.fatal ++ BitVec.ofBool s.ksValid

/-- The 8-byte `STAT` image (R28, R172). -/
def statImage (s : State) : Bytes :=
  natBytes32 s.fb.length ++ [BitVec.ofNat 8 s.ks.length] ++ [flagsByte s] ++ [s.lastErr] ++ [0x00]

/-- The response packet as bytes (R84). -/
def Response.bytes (r : Response) : Bytes := [r.sts.code, r.flg] ++ natBytes16 r.rdata.length ++ r.res ++ r.rdata

end Sys2Proof.Machine
end

