-- ==== Sys2Proof/Machine/Ops.lean ====
section
/-! DEFINITION. The named operations over the state: the framer buffer (20_memory R50, R51, R55), the key slots (10_state
R23, R24), answering a command (30_encoding R84), raising an error (60_exceptions R184), the FATAL refusal (R185) and
reset (70_reset R200). There is no handler to return from and no return command (60_exceptions R188). -/

namespace Sys2Proof.Machine

/-- The framer buffer keeps to its capacity: `len(FB) <= FB_CAP` (10_state R22). -/
def Memory.wf (fb : Bytes) : Bool := decide (fb.length ≤ fbCap)

/-- Byte `i` of the framer buffer, counted from the oldest; none from `len(FB)` on (20_memory R50). -/
def Memory.readByte (fb : Bytes) (i : Nat) : Option Byte := fb[i]?

/-- Append at the end, all or nothing: none where the bytes do not all fit (43_framer R151). -/
def Memory.append (fb d : Bytes) : Option Bytes := if fb.length + d.length > fbCap then none else some (fb ++ d)

/-- Removal of the `n` oldest bytes (00_scope R18). -/
def Memory.dropFront (fb : Bytes) (n : Nat) : Bytes := fb.drop n

/-- `key(KSEL)` (R23), none for slot SESSION while `KS_VALID = 0` (R24). -/
def slotKey (c : Config) (k : KeySlot) (s : State) : Option Bytes :=
  match k with
  | .master => some c.params.kMaster
  | .visit => some c.params.kVisit
  | .session => if s.ksValid then some s.ks else none
  | .none => some []

/-- `respond(STS, RES, RDATA)` (R84): one response, its `FLG` taken from the state after the command. -/
def respond (sts : Status) (res rdata : Bytes) (s : State) : State := s.deliver ⟨sts, flagsByte s, res, rdata⟩

/-- `raise E` (R184): the one way a command ends with an error. -/
def raise (e : Status) (s : State) : State :=
  respond e [] [] (s.setErr e.code (s.fatal || e.isFatal))

/-- A command's outcome, which is `t` unless the FATAL latch refuses the command (R185; log 8). -/
def underLatch (s t : State) : Host.Outcome State Fault Refusal := .next (if s.fatal then raise .fatal s else t)

/-- Reset: every component of the spec's state at its value of R31 (R200). The port's sides are the outside's. -/
def applyReset (s : State) : State := { State.reset with inbox := s.inbox, outbox := s.outbox }

end Sys2Proof.Machine
end

