-- ==== Sys2Proof/Machine/Operands.lean ====
section
/-! DEFINITION. What operands stand for: the key a cipher or signing command uses (40_cipher R100, 42_signature R140), the
version a selector names (30_encoding R74), and the length test of a supplied frame (41_codec R122, 42_signature R142). -/

namespace Sys2Proof.Machine

/-- `cipher_key(KSEL)` (R100); none where it raises `E_CRYPTO_KEYLEN`. -/
def cipherKey (c : Config) (k : CipherSlot) (s : State) : Option Bytes := slotKey c k.slot s

/-- `sign_key(KSEL)` (R140); none where it raises `E_CRYPTO_KEYLEN`. -/
def signKey (c : Config) (k : SignSlot) (s : State) : Option Bytes := slotKey c k.slot s

/-- The version an encoder writes (R74). -/
def versionOf (c : Config) : VersionSel → U16
  | .login => c.params.versionLogin
  | .session => c.params.versionSession

/-- `total_length`, the u16 at offset 2 of a frame (R70, R72). -/
def totalLength (d : Bytes) : Nat := (le16 (slice d 2 4)).toNat

/-- The length tests of FRM.DEC and SIG.CHK: at least 44 bytes, and `total_length` equal to the length supplied (R122,
R142). -/
def frameLengthOk (d : Bytes) : Bool := !lacks d minFrame && totalLength d == d.length

end Sys2Proof.Machine
end

