-- ==== Sys2Proof/Machine/Cipher.lean ====
section
/-! DEFINITION. CIPH: PKCS7 padding and ECB (30_encoding R76 to R78), ECB.ENC and ECB.DEC (40_cipher R100 to R102). -/

namespace Sys2Proof.Machine

/-- `p = 16 - (n mod 16)` for a plaintext of length `n` (R76). -/
def padLen (n : Nat) : Nat := blockBytes - n % blockBytes

/-- `pad(P)`, of length `16 * (len(P) div 16 + 1)` whatever the bytes (R76, R104). -/
def pad (p : Bytes) : Bytes := p ++ rep (BitVec.ofNat 8 (padLen p.length)) (padLen p.length)

/-- `unpad(Q)` for a `Q` whose length is a positive multiple of 16, which takes off 1 to 16 bytes; none where it is invalid
(R76, R104). -/
def unpad (q : Bytes) : Option Bytes :=
  let m := q.length
  let v := byteAt q (m - 1)
  let p := v.toNat
  if 1 ≤ p ∧ p ≤ blockBytes ∧ slice q (m - p) m = rep v p then some (slice q 0 (m - p)) else none

/-- The first 16 bytes of a byte string as a block; the zero filling is never reached, since only whole blocks are taken
(R77). -/
def firstBlock (q : Bytes) : Block := ⟨(q ++ rep 0 blockBytes).take blockBytes, by simp [rep, blockBytes]⟩

/-- `f` on each of the first `n` blocks alone, in order (R77). -/
def mapBlocks (f : Block → Block) : Nat → Bytes → Bytes
  | 0, _ => []
  | n + 1, q => (f (firstBlock q)).1 ++ mapBlocks f n (q.drop blockBytes)

/-- `ecb_enc(k, Q)` (R77). -/
def ecbEnc (c : Config) (k q : Bytes) : Bytes := mapBlocks (c.params.enc k) (q.length / blockBytes) q

/-- `ecb_dec(k, Q)` (R77). -/
def ecbDec (c : Config) (k q : Bytes) : Bytes := mapBlocks (c.params.dec k) (q.length / blockBytes) q

/-- ECB.ENC (R101; the length of its `RDATA` is that of `pad`, R78, R104). -/
def ecbEncCmd (c : Config) (k : CipherSlot) (p : Bytes) (s : State) : State :=
  match cipherKey c k s with
  | none => raise .cryptoKeylen s
  | some key => respond .ok [] (ecbEnc c key (pad p)) s

/-- ECB.DEC (R102; the length of its `RDATA` is `len(CT)` less the 1 to 16 bytes `unpad` takes off, R104). -/
def ecbDecCmd (c : Config) (k : CipherSlot) (ct : Bytes) (s : State) : State :=
  match cipherKey c k s with
  | none => raise .cryptoKeylen s
  | some key =>
    if ct.length = 0 ∨ ct.length % blockBytes ≠ 0 then raise .cryptoBlklen s
    else match unpad (ecbDec c key ct) with
      | none => raise .cryptoPad s
      | some p => respond .ok [] p s

/-- The meaning of ECB.ENC (R101). -/
def execEcbEnc (k : CipherSlot) (p : Bytes) (s : State) : Host.Outcome State Fault Refusal :=
  underLatch s (ecbEncCmd cfg k p s)

/-- The meaning of ECB.DEC (R102). -/
def execEcbDec (k : CipherSlot) (ct : Bytes) (s : State) : Host.Outcome State Fault Refusal :=
  underLatch s (ecbDecCmd cfg k ct s)

end Sys2Proof.Machine
end

