-- ==== Sys2Proof/Machine/Codec.lean ====
section
/-! DEFINITION. CODEC: the 40-byte header and the frame (30_encoding R70 to R75), HDR.ENC, FRM.ENC and FRM.DEC (41_codec
R120 to R122). -/

namespace Sys2Proof.Machine

/-- The 40 header bytes for a payload length that fits (R70, R120); reserved bytes are zero (R73). -/
def headerBytes (c : Config) (v : VersionSel) (h : Hdesc) (plen : Nat) : Bytes :=
  c.params.startMarker.1
    ++ natBytes16 (hdrBytes + plen + sigBytes)
    ++ le16bytes (versionOf c v)
    ++ le16bytes h.cmd
    ++ le32bytesS h.sid.toInt
    ++ le16bytes h.ser
    ++ [h.dir]
    ++ [h.err]
    ++ le16bytes h.ctl
    ++ le32bytes h.uid
    ++ rep 0x00 2
    ++ le32bytes h.ts
    ++ rep 0x00 10
    ++ c.params.endMarker.1

/-- `mk_header(VSEL, h, plen)` (R120); none where it raises `E_FRAMING_OVERSIZE`. -/
def mkHeader (c : Config) (v : VersionSel) (h : Hdesc) (plen : Nat) : Option Bytes :=
  if plen > maxPayload then none else some (headerBytes c v h plen)

/-- `RES` of FRM.DEC: the descriptor `RDESC` and `SIGV` (R85, R122). -/
def rdesc (d : Bytes) : Bytes :=
  natBytes16 (totalLength d)
    ++ slice d 4 6 ++ slice d 6 8 ++ slice d 8 12 ++ slice d 12 14
    ++ [byteAt d 14] ++ [byteAt d 15] ++ slice d 16 18 ++ slice d 18 22
    ++ slice d 24 28
    ++ slice d (d.length - sigBytes) d.length

/-- HDR.ENC (R120). -/
def hdrEncCmd (c : Config) (v : VersionSel) (h : Hdesc) (s : State) : State :=
  match mkHeader c v h h.plen.toNat with
  | none => raise .framingOversize s
  | some hdr => respond .ok [] hdr s

/-- FRM.ENC (R121). -/
def frmEncCmd (c : Config) (k : SignSlot) (v : VersionSel) (h : Hdesc) (p : Bytes) (s : State) : State :=
  match signKey c k s with
  | none => raise .cryptoKeylen s
  | some key =>
    match mkHeader c v h p.length with
    | none => raise .framingOversize s
    | some hdr => respond .ok [] (hdr ++ p ++ (c.params.sig (hdr ++ p) key).1) s

/-- FRM.DEC (R122). -/
def frmDecCmd (d : Bytes) (s : State) : State :=
  if frameLengthOk d then respond .ok (rdesc d) (slice d hdrBytes (d.length - sigBytes)) s
  else raise .framingLen s

/-- The meaning of HDR.ENC (R120). -/
def execHdrEnc (v : VersionSel) (h : Hdesc) (s : State) : Host.Outcome State Fault Refusal :=
  underLatch s (hdrEncCmd cfg v h s)

/-- The meaning of FRM.ENC (R121). -/
def execFrmEnc (k : SignSlot) (v : VersionSel) (h : Hdesc) (p : Bytes) (s : State) : Host.Outcome State Fault Refusal :=
  underLatch s (frmEncCmd cfg k v h p s)

/-- The meaning of FRM.DEC (R122). -/
def execFrmDec (d : Bytes) (s : State) : Host.Outcome State Fault Refusal := underLatch s (frmDecCmd d s)

end Sys2Proof.Machine
end

