-- ==== Sys2Proof/Machine/Framer.lean ====
section
/-! DEFINITION. FRAMER: the six-step extraction (43_framer R152, R153) and FR.PUSH, FR.POP, FR.FEED, FR.RST (R151, R154,
R158, R159). -/

namespace Sys2Proof.Machine

/-- What `extract` leaves in `FB`, and the frame it returns; none is `NeedMore` (R153). -/
structure Extracted where
  fb : Bytes
  frame : Option Bytes
  deriving DecidableEq, Repr

/-- The scan of R153 from the offset whose remaining bytes are the argument: step 2's availability test, the two marker
tests, the length test, each failure moving on by ONE byte, then steps 5 and 6. The bytes before the offset are gone
whichever way it ends. -/
def extract (c : Config) : Bytes → Extracted
  | [] => ⟨[], none⟩
  | b :: rest =>
    let q := b :: rest
    if lacks q hdrBytes then ⟨q, none⟩
    else if slice q 0 2 ≠ c.params.startMarker.1 then extract c rest
    else if slice q 38 40 ≠ c.params.endMarker.1 then extract c rest
    else if totalLength q < minFrame then extract c rest
    else if lacks q (totalLength q) then ⟨q, none⟩
    else ⟨Memory.dropFront q (totalLength q), some (slice q 0 (totalLength q))⟩

/-- FR.POP (R154). -/
def frPopCmd (c : Config) (s : State) : State :=
  let r := extract c s.fb
  match r.frame with
  | none => respond .needMore (natBytes32 r.fb.length) [] (s.setFb r.fb)
  | some f => respond .ok (natBytes32 r.fb.length) f (s.setFb r.fb)

/-- FR.PUSH (R151). -/
def frPushCmd (d : Bytes) (s : State) : State :=
  match Memory.append s.fb d with
  | none => raise .framingOverflow s
  | some fb => respond .ok (natBytes32 fb.length) [] (s.setFb fb)

/-- FR.FEED (R158). -/
def frFeedCmd (c : Config) (d : Bytes) (s : State) : State :=
  match Memory.append s.fb d with
  | none => raise .framingOverflow s
  | some fb => frPopCmd c (s.setFb fb)

/-- FR.RST (R159). -/
def frRstCmd (s : State) : State := respond .ok [] [] (s.setFb [])

/-- The meaning of FR.PUSH (R151). -/
def execFrPush (d : Bytes) (s : State) : Host.Outcome State Fault Refusal := underLatch s (frPushCmd d s)

/-- The meaning of FR.POP (R154). -/
def execFrPop (s : State) : Host.Outcome State Fault Refusal := underLatch s (frPopCmd cfg s)

/-- The meaning of FR.FEED (R158). -/
def execFrFeed (d : Bytes) (s : State) : Host.Outcome State Fault Refusal := underLatch s (frFeedCmd cfg d s)

/-- The meaning of FR.RST (R159). -/
def execFrRst (s : State) : Host.Outcome State Fault Refusal := underLatch s (frRstCmd s)

end Sys2Proof.Machine
end

