-- ==== Sys2Proof/Machine/Sign.lean ====
section
/-! DEFINITION. SIGN: SIG.GEN and SIG.CHK (42_signature R140 to R142). -/

namespace Sys2Proof.Machine

/-- SIG.GEN (R141). -/
def sigGenCmd (c : Config) (k : SignSlot) (d : Bytes) (s : State) : State :=
  match signKey c k s with
  | none => raise .cryptoKeylen s
  | some key => respond .ok [] (c.params.sig d key).1 s

/-- The trailer of a frame equals the signature recomputed over the rest (R142). -/
def trailerMatches (c : Config) (key d : Bytes) : Bool :=
  (c.params.sig (slice d 0 (d.length - sigBytes)) key).1 == slice d (d.length - sigBytes) d.length

/-- SIG.CHK (R142). -/
def sigChkCmd (c : Config) (k : SignSlot) (d : Bytes) (s : State) : State :=
  match signKey c k s with
  | none => raise .cryptoKeylen s
  | some key =>
    if frameLengthOk d then respond .ok [if trailerMatches c key d then 0x01 else 0x00] [] s
    else raise .framingLen s

/-- The meaning of SIG.GEN (R141). -/
def execSigGen (k : SignSlot) (d : Bytes) (s : State) : Host.Outcome State Fault Refusal :=
  underLatch s (sigGenCmd cfg k d s)

/-- The meaning of SIG.CHK (R142). -/
def execSigChk (k : SignSlot) (d : Bytes) (s : State) : Host.Outcome State Fault Refusal :=
  underLatch s (sigChkCmd cfg k d s)

end Sys2Proof.Machine
end

