-- ==== Sys2Proof/Machine/System.lean ====
section
/-! DEFINITION. The system commands KEY.LOAD, KEY.CLR and STAT.RD (44_system R170 to R172). -/

namespace Sys2Proof.Machine

/-- KEY.LOAD (R170). -/
def keyLoadCmd (c : Config) (k : Bytes) (s : State) : State :=
  if s.ksValid then raise .keyLocked s
  else if k.length ∉ c.params.keyLens then raise .cryptoKeylen s
  else respond .ok [] [] (s.setKey k true)

/-- KEY.CLR (R171). -/
def keyClrCmd (s : State) : State := respond .ok [] [] (s.setKey [] false)

/-- STAT.RD (R172). -/
def statRdCmd (s : State) : State := respond .ok (statImage s) [] s

/-- The meaning of KEY.LOAD (R170). -/
def execKeyLoad (k : Bytes) (s : State) : Host.Outcome State Fault Refusal := underLatch s (keyLoadCmd cfg k s)

/-- The meaning of KEY.CLR (R171). -/
def execKeyClr (s : State) : Host.Outcome State Fault Refusal := underLatch s (keyClrCmd s)

/-- The meaning of STAT.RD, the one command the FATAL latch does not refuse (R172, R185). -/
def execStatRd (s : State) : Host.Outcome State Fault Refusal := .next (statRdCmd s)

end Sys2Proof.Machine
end

