-- ==== Sys2Proof/Machine/Dispatch.lean ====
section
/-! DEFINITION. One arm per command (30_encoding R86). -/

namespace Sys2Proof.Machine

def exec (i : Instr) (s : State) : Host.Outcome State Fault Refusal :=
  match i with
  | .ecbEnc slot data => Sys2Proof.Machine.execEcbEnc slot data s
  | .ecbDec slot data => Sys2Proof.Machine.execEcbDec slot data s
  | .hdrEnc ver h => Sys2Proof.Machine.execHdrEnc ver h s
  | .frmEnc slot ver h data => Sys2Proof.Machine.execFrmEnc slot ver h data s
  | .frmDec data => Sys2Proof.Machine.execFrmDec data s
  | .sigGen slot data => Sys2Proof.Machine.execSigGen slot data s
  | .sigChk slot data => Sys2Proof.Machine.execSigChk slot data s
  | .frPush data => Sys2Proof.Machine.execFrPush data s
  | .frPop => Sys2Proof.Machine.execFrPop s
  | .frFeed data => Sys2Proof.Machine.execFrFeed data s
  | .frRst => Sys2Proof.Machine.execFrRst s
  | .keyLoad data => Sys2Proof.Machine.execKeyLoad data s
  | .keyClr => Sys2Proof.Machine.execKeyClr s
  | .statRd => Sys2Proof.Machine.execStatRd s

end Sys2Proof.Machine
end

