-- ==== Sys2Proof/Machine/Port.lean ====
section
/-! DEFINITION. What one event on the command port does (00_scope R3, 60_exceptions R183): the FATAL refusal, the decode
step, the command; reset; and the wait on an idle port. -/

namespace Sys2Proof.Machine

/-- `FATAL = 1` and the packet's first byte is not STAT.RD's; an empty packet counts as not (R183, R185). -/
def latchRefuses (c : Bytes) (s : State) : Bool := s.fatal && c.head? != some Opcode.statRd.code

/-- One command packet (R183): `E_FATAL`, then `E_ILLEGAL`, then the command itself. -/
def takePacket (c : Bytes) (s : State) : Host.Outcome State Fault Refusal :=
  if latchRefuses c s then .next (raise .fatal s)
  else match decodeCmd c with
    | .error _ => .next (raise .illegal s)
    | .ok i => exec i s

/-- One event (R58, R200). -/
def takeEvent (e : PortEvent) (s : State) : Host.Outcome State Fault Refusal :=
  match e with
  | .packet c => takePacket c s
  | .reset => .next (applyReset s)

/-- The step: the next event, or the wait for one, which changes nothing (R190, R200; log 3). -/
def portStep (s : State) : Host.Outcome State Fault Refusal :=
  match s.inbox with
  | [] => .next s
  | e :: rest => takeEvent e (s.setInbox rest)

/-- The outside will present `e` next. -/
def present (e : PortEvent) (s : State) : State := s.setInbox (e :: s.inbox)

end Sys2Proof.Machine
end

