-- ==== Sys2Proof/Machine/Step.lean ====
section
/-! DEFINITION. One step of E7PE (00_scope R3, R15): one event of the command port, answered whole. -/

namespace Sys2Proof.Machine

/-- The step function. -/
def step (s : State) : Host.Outcome State Fault Refusal := portStep s

/-- `s` with the command packet of table word `w` presented next (log 2, log 11). -/
def State.withFetchWord (s : State) (nbits w : Nat) : State := present (.packet (tablePacket nbits w)) s

end Sys2Proof.Machine
end

