-- ==== Sys2Proof/Safety.lean ====
section
/-! DEFINITION. The terms claims are stated in: the invariants of 10_state (R22, R24, R27), which key a slot stands for, what
each command may write (R32), legal packets (30_encoding R80 to R83), the header test and the literal loop of 43_framer
(R152, R153), and the host's receive procedure (R91, R160). -/

namespace Sys2Proof.Machine

/-- What the spec says of every state: `len(FB) <= FB_CAP` (R22); `KS` empty while `KS_VALID = 0` and of legal length while
it is 1 (R24); `LAST_ERR` 0 or an error code (R27); and a set latch has left an error code behind (R26, R27). -/
structure State.Inv (s : State) : Prop where
  fb_cap : Memory.wf s.fb = true
  ks_absent : s.ksValid = false → s.ks = []
  ks_legal : s.ksValid = true → s.ks.length ∈ cfg.params.keyLens
  last_err : s.lastErr = 0 ∨ ∃ e : Status, e.isError = true ∧ s.lastErr = e.code
  fatal_err : s.fatal = true → s.lastErr ≠ 0

/-- A response fits its packet (R84): `RDATA` within its 16-bit length, the result block no larger than the largest of R83,
both empty under an error status, no `RDATA` unless the status is `OK`, and the upper six bits of `FLG` zero. -/
structure Response.Fits (r : Response) : Prop where
  rdata_length : r.rdata.length ≤ maxData
  res_length : r.res.length ≤ 28
  error_empty : r.sts.isError = true → r.res = []
  rdata_ok : r.sts ≠ .ok → r.rdata = []
  flg_zero : r.flg.extractLsb' 2 6 = 0

/-- Every response delivered so far fits its packet. -/
def State.ResponsesFit (s : State) : Prop := ∀ r ∈ s.outbox, r.Fits

/-- `key` is the usable key of a cipher command's slot (R23, R100). -/
def cipherKeyIs (k : CipherSlot) (s : State) (key : Bytes) : Prop :=
  match k with
  | .master => key = cfg.params.kMaster
  | .visit => key = cfg.params.kVisit
  | .session => s.ksValid = true ∧ key = s.ks

/-- `key` is the usable key of a signing command's slot (R23, R140). -/
def signKeyIs (k : SignSlot) (s : State) (key : Bytes) : Prop :=
  match k with
  | .session => s.ksValid = true ∧ key = s.ks
  | .none => key = []

/-- The command names slot SESSION (R23, R81). -/
def usesSession (i : Instr) : Prop := i.ksel = KeySlot.session.ksel

/-- The commands with a `w` under FB (R32). -/
def writesFb : Instr → Bool
  | .frPush _ | .frPop | .frFeed _ | .frRst => true
  | .ecbEnc _ _ | .ecbDec _ _ | .hdrEnc _ _ | .frmEnc _ _ _ _ | .frmDec _ | .sigGen _ _ | .sigChk _ _ | .keyLoad _
  | .keyClr | .statRd => false

/-- The commands with a `w` under KS, KS_VALID (R32). -/
def writesKey : Instr → Bool
  | .keyLoad _ | .keyClr => true
  | .ecbEnc _ _ | .ecbDec _ _ | .hdrEnc _ _ | .frmEnc _ _ _ _ | .frmDec _ | .sigGen _ _ | .sigChk _ _ | .frPush _ | .frPop
  | .frFeed _ | .frRst | .statRd => false

/-- The size of `RES` on success (R83). -/
def resSize : Instr → Nat
  | .frmDec _ => 28
  | .sigChk _ _ => 1
  | .frPush _ | .frPop | .frFeed _ => 4
  | .statRd => 8
  | .ecbEnc _ _ | .ecbDec _ _ | .hdrEnc _ _ | .frmEnc _ _ _ _ | .sigGen _ _ | .frRst | .keyLoad _ | .keyClr => 0

/-- The `KSEL` column of R83. -/
def kselColumn : Opcode → List (BitVec 2)
  | .ecbEnc | .ecbDec => [0, 1, 2]
  | .frmEnc | .sigGen | .sigChk => [2, 3]
  | .hdrEnc | .frmDec | .frPush | .frPop | .frFeed | .frRst | .keyLoad | .keyClr | .statRd => [0]

/-- The `VSEL` column of R83. -/
def vselColumn : Opcode → List (BitVec 1)
  | .hdrEnc | .frmEnc => [0, 1]
  | .ecbEnc | .ecbDec | .frmDec | .sigGen | .sigChk | .frPush | .frPop | .frFeed | .frRst | .keyLoad | .keyClr
  | .statRd => [0]

/-- The largest `DLEN` of R83's column. -/
def dlenColumn : Opcode → Nat
  | .ecbEnc => 65519
  | .ecbDec | .frmEnc | .frmDec | .sigGen | .sigChk | .frPush | .frFeed | .keyLoad => 65535
  | .hdrEnc | .frPop | .frRst | .keyClr | .statRd => 0

/-- A packet that is well-formed and legal for opcode `op` (R80, R81, R83; the FRM.ENC clause is R87's). -/
def legalFor (op : Opcode) (c : Bytes) : Prop :=
  4 ≤ c.length ∧ byteAt c 0 = op.code ∧ c.length = 4 + op.argLen + dlenOf c ∧ (byteAt c 1).extractLsb' 3 5 = 0
    ∧ (byteAt c 1).extractLsb' 0 2 ∈ kselColumn op ∧ (byteAt c 1).extractLsb' 2 1 ∈ vselColumn op
    ∧ dlenOf c ≤ dlenColumn op ∧ (op = .frmEnc → (le16 (slice c 4 6)).toNat = dlenOf c)

/-- A legal packet: legal for one of the fourteen opcodes (R83, R86). -/
def legalPacket (c : Bytes) : Prop := ∃ op, legalFor op c

/-- `L(i)`: the length declared at offset `i` (R152). -/
def declaredLen (fb : Bytes) (i : Nat) : Nat := (le16 (slice fb (i + 2) (i + 4))).toNat

/-- `hdr_ok(i)` (R152), for an offset with 40 bytes present. -/
def hdrOk (fb : Bytes) (i : Nat) : Prop :=
  i + 40 ≤ fb.length ∧ slice fb i (i + 2) = cfg.params.startMarker.1 ∧ slice fb (i + 38) (i + 40) = cfg.params.endMarker.1
    ∧ 44 ≤ declaredLen fb i

/-- The loop of R153 with its offset `i` as written there, its body run at most `n` times. -/
def extractLoop (fb : Bytes) : Nat → Nat → Extracted
  | 0, i => ⟨fb.drop i, none⟩
  | n + 1, i =>
    if fb.length - i < 40 then ⟨fb.drop i, none⟩
    else if slice fb i (i + 2) ≠ cfg.params.startMarker.1 then extractLoop fb n (i + 1)
    else if slice fb (i + 38) (i + 40) ≠ cfg.params.endMarker.1 then extractLoop fb n (i + 1)
    else if declaredLen fb i < 44 then extractLoop fb n (i + 1)
    else if fb.length - i < declaredLen fb i then ⟨fb.drop i, none⟩
    else ⟨fb.drop (i + declaredLen fb i), some (slice fb i (i + declaredLen fb i))⟩

/-- The state after a command; the state itself where there is none. -/
def after (i : Instr) (s : State) : State :=
  match exec i s with
  | .next t => t
  | .fault _ => s
  | .refused _ => s

/-- FR.DRAIN (R91): FR.POP until a response is not `OK`, at most `n` times; the frames returned, and the state. -/
def drain : Nat → State → List Bytes × State
  | 0, s => ([], s)
  | n + 1, s =>
    match (after .frPop s).outbox.getLast? with
    | none => ([], after .frPop s)
    | some r =>
      if r.sts = .ok then (r.rdata :: (drain n (after .frPop s)).1, (drain n (after .frPop s)).2)
      else ([], after .frPop s)

/-- The run of R160: for each chunk in order FR.PUSH, then FR.POP until `NEED_MORE`; the frames, and the state. -/
def receive : List Bytes → State → List Bytes × State
  | [], s => ([], s)
  | d :: ds, s =>
    let t := after (.frPush d) s
    let a := drain (t.fb.length + 1) t
    let b := receive ds a.2
    (a.1 ++ b.1, b.2)

end Sys2Proof.Machine
end

