-- ==== Sys2Proof/Certificates/Slice0/Obligations.lean ====
section
/-! DEFINITION. The statements for the provers, from the numbered rules of spec/. `cfg` has no body, so each holds for every
configuration the spec allows (log 1). -/

open Sys2Proof Sys2Proof.Machine

-- Reset and the port.

/-- R31: the reset values of the five components. -/
def Obligations.ResetLeavesR31Values : Prop :=
  State.reset.fb = [] ∧ State.reset.ks = [] ∧ State.reset.ksValid = false ∧ State.reset.fatal = false ∧
    State.reset.lastErr = 0x00

/-- R200: a reset between commands puts every component at its reset value, from any state; what the outside still has to
present and the responses it has are not E7PE's (log 2). -/
def Obligations.ResetEventRestoresResetValues : Prop :=
  ∀ (s : State) (rest : List PortEvent), s.inbox = .reset :: rest →
    ∃ t, step s = .next t ∧ t.fb = [] ∧ t.ks = [] ∧ t.ksValid = false ∧ t.fatal = false ∧ t.lastErr = 0x00 ∧
      t.inbox = rest ∧ t.outbox = s.outbox

/-- R190, R200; that the wait is a step which changes nothing is the model's choice (log 3). -/
def Obligations.IdlePortChangesNothing : Prop := ∀ s : State, s.inbox = [] → step s = .next s

/-- R58, R89, R183: a packet that decodes is run as the command it decodes to; the step takes the packet off the port (which
stands in State by the model's choice, log 2) and does nothing else around the command. -/
def Obligations.StepRunsDecodedCommand : Prop :=
  ∀ (s : State) (c : Bytes) (rest : List PortEvent) (i : Instr), s.inbox = .packet c :: rest → decodeCmd c = .ok i →
    step s = exec i { s with inbox := rest }

/-- R80, R83, R87, R89: while FATAL = 0, a packet runs as a command exactly when it is well-formed and legal, and every
other byte string gets `E_ILLEGAL`, with no change of state but LAST_ERR. -/
def Obligations.PacketIsRunOrIllegal : Prop :=
  ∀ (s : State) (c : Bytes) (rest : List PortEvent), s.inbox = .packet c :: rest → s.fatal = false →
    (legalPacket c → ∃ i, decodeCmd c = .ok i ∧ step s = exec i { s with inbox := rest }) ∧
    (¬ legalPacket c → ∃ t, step s = .next t ∧
      t = { s with inbox := rest, lastErr := 0x10, outbox := s.outbox ++ [⟨.illegal, flagsByte s, [], []⟩] })

/-- R185: refusal while FATAL = 1. -/
def Obligations.FatalLatchRefusesAllButStatRd : Prop :=
  ∀ (s : State) (c : Bytes) (rest : List PortEvent), s.inbox = .packet c :: rest → s.fatal = true →
    (c.head? ≠ some 0x52 → ∃ t, step s = .next t ∧
      t = { s with inbox := rest, lastErr := 0x11, outbox := s.outbox ++ [⟨.fatal, flagsByte s, [], []⟩] }) ∧
    (c.head? = some 0x52 →
      (legalPacket c → step s = exec .statRd { s with inbox := rest }) ∧
      (¬ legalPacket c → ∃ t, step s = .next t ∧
        t = { s with inbox := rest, lastErr := 0x10, outbox := s.outbox ++ [⟨.illegal, flagsByte s, [], []⟩] })) ∧
    ∀ t, step s = .next t → t.fatal = true

/-- R26, R186: a step sets FATAL exactly when its response is one of the two fatal errors, and only reset clears it. -/
def Obligations.FatalSetByFatalErrorsClearedByReset : Prop :=
  ∀ s t : State, step s = .next t →
    (s.fatal = true → t.fatal = false → ∃ rest, s.inbox = .reset :: rest) ∧
    (s.fatal = false →
      (t.fatal = true ↔ ∃ r, t.outbox = s.outbox ++ [r] ∧ (r.sts = .cryptoKeylen ∨ r.sts = .cryptoBlklen)))

/-- R3, R27, R83, R84: every packet gets exactly one response. Its FLG is that of the state after the command. Under an
error status it is empty and its code is in LAST_ERR; under another, LAST_ERR stays, `RES` has the size of the command's row,
and there is no `RDATA` unless the status is `OK`. -/
def Obligations.EveryPacketIsAnsweredOnce : Prop :=
  ∀ (s : State) (c : Bytes) (rest : List PortEvent), s.inbox = .packet c :: rest →
    ∃ t r, step s = .next t ∧ t.inbox = rest ∧ t.outbox = s.outbox ++ [r] ∧ r.flg = flagsByte t ∧
      (r.sts.isError = true → r.res = [] ∧ r.rdata = [] ∧ t.lastErr = r.sts.code) ∧
      (r.sts.isError = false → t.lastErr = s.lastErr ∧ (r.sts ≠ .ok → r.rdata = []) ∧
        ∃ i, decodeCmd c = .ok i ∧ r.res.length = resSize i)

/-- R84, R28, R180: the bytes of a response packet, the bits of FLAGS, and the eleven status codes, which are the values `STS`
takes and, those from `0x10` up, the values an error leaves in LAST_ERR. -/
def Obligations.ResponsePacketLayout : Prop :=
  (∀ r : Response, r.rdata.length ≤ 65535 →
    byteAt r.bytes 0 = r.sts.code ∧ byteAt r.bytes 1 = r.flg ∧ (le16 (slice r.bytes 2 4)).toNat = r.rdata.length ∧
    slice r.bytes 4 (4 + r.res.length) = r.res ∧ r.bytes.drop (4 + r.res.length) = r.rdata) ∧
  (∀ r : Response, byteAt r.bytes 0 = (match r.sts with
    | .ok => 0x00
    | .needMore => 0x01
    | .illegal => 0x10
    | .fatal => 0x11
    | .cryptoKeylen => 0x20
    | .cryptoBlklen => 0x21
    | .cryptoPad => 0x22
    | .keyLocked => 0x23
    | .framingLen => 0x30
    | .framingOversize => 0x31
    | .framingOverflow => 0x32)) ∧
  (∀ (e : Status) (s : State), (raise e s).lastErr = e.code) ∧
  (∀ e : Status, e.isError = true ↔ 0x10 ≤ e.code.toNat) ∧
  (∀ s : State, (flagsByte s).getLsbD 0 = s.ksValid ∧ (flagsByte s).getLsbD 1 = s.fatal ∧
    ∀ n, 2 ≤ n → (flagsByte s).getLsbD n = false)

-- Errors and frames over all commands.

/-- R184: an error writes LAST_ERR, sets FATAL if it is a fatal one, answers with an empty response, and changes nothing
else. -/
def Obligations.ErrorsChangeOnlyErrorState : Prop :=
  ∀ (s t : State) (c : Bytes) (rest : List PortEvent) (r : Response), s.inbox = .packet c :: rest → step s = .next t →
    t.outbox = s.outbox ++ [r] → r.sts.isError = true →
    t = { s with
      inbox := rest
      lastErr := r.sts.code
      fatal := s.fatal || decide (r.sts = .cryptoKeylen ∨ r.sts = .cryptoBlklen)
      outbox := s.outbox ++ [⟨r.sts, flagsByte t, [], []⟩] }

/-- R32, R55: the frame of all fourteen commands. A command with no `w` under FB leaves every byte of FB; one with no `w`
under the key leaves KS and KS_VALID; without an error FATAL and LAST_ERR stay; what is still to be presented stays, and one
response is added after those already given. -/
def Obligations.CommandsWriteOnlyTheirColumns : Prop :=
  ∀ (i : Instr) (s t : State), exec i s = .next t →
    (writesFb i = false → t.fb.length = s.fb.length ∧ ∀ n, Memory.readByte t.fb n = Memory.readByte s.fb n) ∧
    (writesKey i = false → t.ks = s.ks ∧ t.ksValid = s.ksValid) ∧
    t.inbox = s.inbox ∧
    ∃ r, t.outbox = s.outbox ++ [r] ∧ (r.sts.isError = false → t.fatal = s.fatal ∧ t.lastErr = s.lastErr)

/-- R56: a command that writes no state gives the same response when it is repeated; FR.RST and KEY.CLR are idempotent;
a second KEY.LOAD fails with `E_KEY_LOCKED`. -/
def Obligations.RepeatingCommands : Prop :=
  (∀ (i : Instr) (s t u : State) (r : Response), writesFb i = false → writesKey i = false → exec i s = .next t →
    t.outbox = s.outbox ++ [r] → r.sts = .ok → exec i t = .next u → u.outbox = t.outbox ++ [r]) ∧
  (∀ s t u : State, s.fatal = false → exec .frRst s = .next t → exec .frRst t = .next u →
    u = { t with outbox := u.outbox }) ∧
  (∀ s t u : State, s.fatal = false → exec .keyClr s = .next t → exec .keyClr t = .next u →
    u = { t with outbox := u.outbox }) ∧
  (∀ (k k' : Bytes) (s t : State), s.fatal = false → s.ksValid = false → k.length ∈ cfg.params.keyLens →
    exec (.keyLoad k) s = .next t → exec (.keyLoad k') t = .next (raise .keyLocked t))

-- CIPH.

/-- R101, R76, R77: with a usable key ECB.ENC answers `OK`, and block `j` of the ciphertext is `Enc` of block `j` of the padded
plaintext; nothing else changes. -/
def Obligations.EcbEncEnciphersPaddedBlocks : Prop :=
  ∀ (k : CipherSlot) (p : Bytes) (s : State) (key : Bytes), s.fatal = false → cipherKeyIs k s key →
    ∃ ct, exec (.ecbEnc k p) s = .next (respond .ok [] ct s) ∧ ct.length = 16 * (p.length / 16 + 1) ∧
      ∀ j < p.length / 16 + 1, ∀ b : Block,
        b.1 = slice (p ++ List.replicate (16 - p.length % 16) (BitVec.ofNat 8 (16 - p.length % 16))) (16 * j) (16 * j + 16) →
        slice ct (16 * j) (16 * j + 16) = (cfg.params.enc key b).1

/-- R102, R76, R77: with a usable key and a ciphertext of one or more whole blocks, ECB.DEC answers `OK` with the deciphered
bytes less a valid padding, all of whose bytes are checked, and `E_CRYPTO_PAD` where there is none. -/
def Obligations.EcbDecDeciphersAndUnpads : Prop :=
  ∀ (k : CipherSlot) (ct : Bytes) (s : State) (key : Bytes), s.fatal = false → cipherKeyIs k s key →
    0 < ct.length → ct.length % 16 = 0 →
    ∃ q v, q.length = ct.length ∧
      (∀ j < ct.length / 16, ∀ b : Block, b.1 = slice ct (16 * j) (16 * j + 16) →
        slice q (16 * j) (16 * j + 16) = (cfg.params.dec key b).1) ∧
      q[ct.length - 1]? = some v ∧
      exec (.ecbDec k ct) s = .next (
        if 1 ≤ v.toNat ∧ v.toNat ≤ 16 ∧ q.drop (ct.length - v.toNat) = List.replicate v.toNat v
        then respond .ok [] (q.take (ct.length - v.toNat)) s
        else raise .cryptoPad s)

/-- R100, R102, R183: the errors of the cipher commands, the key before the length. -/
def Obligations.CipherErrorsKeyBeforeLength : Prop :=
  ∀ s : State, s.fatal = false →
    (∀ p, s.ksValid = false → exec (.ecbEnc .session p) s = .next (raise .cryptoKeylen s)) ∧
    (∀ ct, s.ksValid = false → exec (.ecbDec .session ct) s = .next (raise .cryptoKeylen s)) ∧
    (∀ k key ct, cipherKeyIs k s key → ct.length = 0 ∨ ct.length % 16 ≠ 0 →
      exec (.ecbDec k ct) s = .next (raise .cryptoBlklen s))

/-- R103: deciphering undoes enciphering, in the same state. -/
def Obligations.EcbRoundTrip : Prop :=
  ∀ (k : CipherSlot) (p ct : Bytes) (s : State), s.Inv → p.length ≤ 65519 →
    exec (.ecbEnc k p) s = .next (respond .ok [] ct s) → exec (.ecbDec k ct) s = .next (respond .ok [] p s)

/-- R104: the length laws of both cipher commands. -/
def Obligations.CipherLengthLaws : Prop :=
  (∀ (k : CipherSlot) (p ct : Bytes) (s : State), exec (.ecbEnc k p) s = .next (respond .ok [] ct s) →
    ct.length = 16 * (p.length / 16 + 1)) ∧
  (∀ (k : CipherSlot) (p ct : Bytes) (s : State), exec (.ecbDec k ct) s = .next (respond .ok [] p s) →
    ∃ n, 1 ≤ n ∧ n ≤ 16 ∧ p.length = ct.length - n ∧ n ≤ ct.length)

/-- R105: a ciphertext block depends on the key and on the same block of the padded plaintext alone, whatever slot holds the
key and whatever else the state holds. -/
def Obligations.CiphertextBlockIndependence : Prop :=
  ∀ (k k' : CipherSlot) (p p' ct ct' key : Bytes) (s s' : State) (j : Nat),
    cipherKeyIs k s key → cipherKeyIs k' s' key →
    exec (.ecbEnc k p) s = .next (respond .ok [] ct s) → exec (.ecbEnc k' p') s' = .next (respond .ok [] ct' s') →
    j < p.length / 16 + 1 → j < p'.length / 16 + 1 →
    slice (pad p) (16 * j) (16 * j + 16) = slice (pad p') (16 * j) (16 * j + 16) →
    slice ct (16 * j) (16 * j + 16) = slice ct' (16 * j) (16 * j + 16)

-- CODEC.

/-- R120, R70, R73, R74, R125: HDR.ENC writes every field at its offset, little-endian, the length without wrap-around; a
payload length above 65491 is `E_FRAMING_OVERSIZE`. -/
def Obligations.HdrEncWritesEveryField : Prop :=
  ∀ (v : VersionSel) (h : Hdesc) (s : State), s.fatal = false →
    (h.plen.toNat ≤ 65491 → ∃ hdr, exec (.hdrEnc v h) s = .next (respond .ok [] hdr s) ∧ hdr.length = 40 ∧
      slice hdr 0 2 = cfg.params.startMarker.1 ∧
      (le16 (slice hdr 2 4)).toNat = 40 + h.plen.toNat + 4 ∧
      le16 (slice hdr 4 6) = (match v with | .login => cfg.params.versionLogin | .session => cfg.params.versionSession) ∧
      le16 (slice hdr 6 8) = h.cmd ∧ le32s (slice hdr 8 12) = h.sid.toInt ∧ le16 (slice hdr 12 14) = h.ser ∧
      hdr[14]? = some h.dir ∧ hdr[15]? = some h.err ∧ le16 (slice hdr 16 18) = h.ctl ∧ le32 (slice hdr 18 22) = h.uid ∧
      slice hdr 22 24 = rep 0x00 2 ∧ le32 (slice hdr 24 28) = h.ts ∧ slice hdr 28 38 = rep 0x00 10 ∧
      slice hdr 38 40 = cfg.params.endMarker.1) ∧
    (65491 < h.plen.toNat → exec (.hdrEnc v h) s = .next (raise .framingOversize s))

/-- R121: FRM.ENC answers header, payload and the signature of both under the selected key; the key is checked before the
length. -/
def Obligations.FrmEncSignsHeaderAndPayload : Prop :=
  ∀ (k : SignSlot) (v : VersionSel) (h : Hdesc) (p : Bytes) (s : State), s.fatal = false →
    (∀ key, signKeyIs k s key → p.length ≤ 65491 →
      ∃ hdr, exec (.hdrEnc v { h with plen := BitVec.ofNat 16 p.length }) s = .next (respond .ok [] hdr s) ∧
        exec (.frmEnc k v h p) s = .next (respond .ok [] (hdr ++ p ++ (cfg.params.sig (hdr ++ p) key).1) s)) ∧
    (∀ key, signKeyIs k s key → 65491 < p.length → exec (.frmEnc k v h p) s = .next (raise .framingOversize s)) ∧
    (s.ksValid = false → exec (.frmEnc .session v h p) s = .next (raise .cryptoKeylen s))

/-- R122: FRM.DEC splits a frame whose length is consistent, and checks nothing else. -/
def Obligations.FrmDecSplitsFrame : Prop :=
  ∀ (d : Bytes) (s : State), s.fatal = false →
    (44 ≤ d.length → (le16 (slice d 2 4)).toNat = d.length →
      exec (.frmDec d) s = .next (respond .ok
        (slice d 2 22 ++ slice d 24 28 ++ slice d (d.length - 4) d.length) (slice d 40 (d.length - 4)) s)) ∧
    (d.length < 44 ∨ (le16 (slice d 2 4)).toNat ≠ d.length → exec (.frmDec d) s = .next (raise .framingLen s))

/-- R123: FRM.DEC gives back every field FRM.ENC was given, the payload, and the signature. -/
def Obligations.HeaderFieldsRoundTrip : Prop :=
  ∀ (k : SignSlot) (v : VersionSel) (h : Hdesc) (p f : Bytes) (s : State), p.length ≤ 65491 →
    exec (.frmEnc k v h p) s = .next (respond .ok [] f s) →
    ∃ res, exec (.frmDec f) s = .next (respond .ok res p s) ∧
      (le16 (slice res 0 2)).toNat = 44 + p.length ∧
      le16 (slice res 2 4) = (match v with | .login => cfg.params.versionLogin | .session => cfg.params.versionSession) ∧
      le16 (slice res 4 6) = h.cmd ∧ le32s (slice res 6 10) = h.sid.toInt ∧ le16 (slice res 10 12) = h.ser ∧
      res[12]? = some h.dir ∧ res[13]? = some h.err ∧ le16 (slice res 14 16) = h.ctl ∧ le32 (slice res 16 20) = h.uid ∧
      le32 (slice res 20 24) = h.ts ∧
      ∀ key, signKeyIs k s key → slice res 24 28 = (cfg.params.sig (slice f 0 (f.length - 4)) key).1

/-- R124: FRAMER takes a frame FRM.ENC built whole, and keeps nothing. -/
def Obligations.FramerTakesBuiltFrame : Prop :=
  ∀ (k : SignSlot) (v : VersionSel) (h : Hdesc) (p f : Bytes) (s : State), p.length ≤ 65491 →
    exec (.frmEnc k v h p) s = .next (respond .ok [] f s) → s.fb = [] →
    exec (.frFeed f) s = .next (respond .ok [0x00, 0x00, 0x00, 0x00] f s) ∧
      slice f 0 2 = cfg.params.startMarker.1 ∧ slice f 38 40 = cfg.params.endMarker.1 ∧
      (le16 (slice f 2 4)).toNat = f.length ∧ 44 ≤ f.length

/-- R126: a legal FRM.ENC answers `H`, `P`, `T` in a row, where `H` is what HDR.ENC answers and `T` what SIG.GEN answers over
`H` and `P`; and it answers `OK` exactly when both do. -/
def Obligations.FrmEncIsHdrEncThenSigGen : Prop :=
  ∀ (k : SignSlot) (v : VersionSel) (h : Hdesc) (p f : Bytes) (s : State), (Instr.frmEnc k v h p).wellFormed = true →
    (exec (.frmEnc k v h p) s = .next (respond .ok [] f s) ↔
      ∃ hdr sg, exec (.hdrEnc v h) s = .next (respond .ok [] hdr s) ∧
        exec (.sigGen k (hdr ++ p)) s = .next (respond .ok [] sg s) ∧ f = hdr ++ p ++ sg)

-- SIGN.

/-- R140, R141: SIG.GEN answers the signature of its data under the selected key, whatever the data. -/
def Obligations.SigGenSigns : Prop :=
  ∀ (k : SignSlot) (d : Bytes) (s : State), s.fatal = false →
    (∀ key, signKeyIs k s key → exec (.sigGen k d) s = .next (respond .ok [] (cfg.params.sig d key).1 s)) ∧
    (s.ksValid = false → exec (.sigGen .session d) s = .next (raise .cryptoKeylen s))

/-- R142: SIG.CHK compares the trailer with the recomputed signature; a mismatch is a result, not an error. -/
def Obligations.SigChkComparesTrailer : Prop :=
  ∀ (k : SignSlot) (d : Bytes) (s : State), s.fatal = false →
    (∀ key, signKeyIs k s key → 44 ≤ d.length → (le16 (slice d 2 4)).toNat = d.length →
      ((cfg.params.sig (d.take (d.length - 4)) key).1 = d.drop (d.length - 4) →
        exec (.sigChk k d) s = .next (respond .ok [0x01] [] s)) ∧
      ((cfg.params.sig (d.take (d.length - 4)) key).1 ≠ d.drop (d.length - 4) →
        exec (.sigChk k d) s = .next (respond .ok [0x00] [] s))) ∧
    (∀ key, signKeyIs k s key → d.length < 44 ∨ (le16 (slice d 2 4)).toNat ≠ d.length →
      exec (.sigChk k d) s = .next (raise .framingLen s)) ∧
    (s.ksValid = false → exec (.sigChk .session d) s = .next (raise .cryptoKeylen s))

/-- R143: a frame built by FRM.ENC verifies in the same state. -/
def Obligations.BuiltFrameVerifies : Prop :=
  ∀ (k : SignSlot) (v : VersionSel) (h : Hdesc) (p f : Bytes) (s : State), p.length ≤ 65491 →
    exec (.frmEnc k v h p) s = .next (respond .ok [] f s) → exec (.sigChk k f) s = .next (respond .ok [0x01] [] s)

-- FRAMER.

/-- R151: FR.PUSH appends all of its bytes, or none. -/
def Obligations.FrPushAppendsAllOrNothing : Prop :=
  ∀ (d : Bytes) (s : State), s.fatal = false →
    (s.fb.length + d.length ≤ 131072 → ∃ t res, exec (.frPush d) s = .next t ∧
      t = respond .ok res [] { s with fb := t.fb } ∧ res.length = 4 ∧ (le32 res).toNat = s.fb.length + d.length ∧
      t.fb.length = s.fb.length + d.length ∧
      (∀ i < s.fb.length, Memory.readByte t.fb i = Memory.readByte s.fb i) ∧
      (∀ i < d.length, Memory.readByte t.fb (s.fb.length + i) = d[i]?)) ∧
    (131072 < s.fb.length + d.length → exec (.frPush d) s = .next (raise .framingOverflow s))

/-- R153, R154, R157, R162: FR.POP stops at the first offset with fewer than 40 bytes or with a header. Everything before it is
gone; the bytes from it on are kept, unless the whole frame is there: then the frame is returned and the bytes after it are
kept. -/
def Obligations.FrPopStopsAtFirstHeader : Prop :=
  ∀ s : State, s.fatal = false →
    ∃ i ≤ s.fb.length, (∀ j < i, j + 40 ≤ s.fb.length ∧ ¬ hdrOk s.fb j) ∧
      ((s.fb.length - i < 40 ∨ hdrOk s.fb i ∧ s.fb.length - i < declaredLen s.fb i) ∧
          exec .frPop s = .next (respond .needMore (natBytes32 (s.fb.length - i)) [] { s with fb := s.fb.drop i }) ∨
       hdrOk s.fb i ∧ i + declaredLen s.fb i ≤ s.fb.length ∧
          exec .frPop s = .next (respond .ok (natBytes32 (s.fb.length - (i + declaredLen s.fb i)))
            (slice s.fb i (i + declaredLen s.fb i)) { s with fb := s.fb.drop (i + declaredLen s.fb i) }))

/-- R153, R155: FR.POP does what the loop of R153 does, its body run at most `max(0, len(FB) - 39) + 1` times. -/
def Obligations.FrPopRunsTheSourceLoop : Prop :=
  ∀ s : State, s.fatal = false → ∀ r, r = extractLoop s.fb (s.fb.length - 39 + 1) 0 →
    (r.frame = none → exec .frPop s = .next (respond .needMore (natBytes32 r.fb.length) [] { s with fb := r.fb })) ∧
    (∀ f, r.frame = some f → exec .frPop s = .next (respond .ok (natBytes32 r.fb.length) f { s with fb := r.fb }))

/-- R156, R151: what FB holds after `NEED_MORE`, and that one maximal push then fits. -/
def Obligations.NeedMoreLeavesRoomForOnePush : Prop :=
  ∀ (i : Instr) (s t : State) (r : Response), (i = .frPop ∨ ∃ d, i = .frFeed d) → exec i s = .next t →
    t.outbox = s.outbox ++ [r] → r.sts = .needMore →
    (t.fb.length < 40 ∨ hdrOk t.fb 0 ∧ t.fb.length < declaredLen t.fb 0 ∧ declaredLen t.fb 0 ≤ 65535) ∧
    t.fb.length ≤ 65534 ∧
    ∀ d : Bytes, d.length ≤ 65535 → ∃ u, exec (.frPush d) t = .next u ∧ u.fb = t.fb ++ d

/-- R158: FR.FEED is FR.PUSH followed by FR.POP, and does nothing when the push fails. -/
def Obligations.FrFeedIsPushThenPop : Prop :=
  ∀ (d : Bytes) (s : State), s.fatal = false →
    (s.fb.length + d.length ≤ 131072 → ∃ (res : Bytes) (t : State) (r : Response) (u : State),
      exec (.frPush d) s = .next (respond .ok res [] t) ∧
      exec .frPop (respond .ok res [] t) = .next { u with outbox := s.outbox ++ [⟨.ok, flagsByte s, res, []⟩, r] } ∧
      exec (.frFeed d) s = .next { u with outbox := s.outbox ++ [r] }) ∧
    (131072 < s.fb.length + d.length → exec (.frFeed d) s = .next (raise .framingOverflow s))

/-- R159: FR.RST empties FB and touches nothing else; its packet. -/
def Obligations.FrRstEmptiesBuffer : Prop :=
  (∀ s : State, s.fatal = false → exec .frRst s = .next (respond .ok [] [] { s with fb := [] })) ∧
  encode .frRst = [0x43, 0x00, 0x00, 0x00]

/-- R57: FB is a first-in first-out queue. What a command without error leaves in FB is what was there, followed by the bytes
it was given, less a front part; a frame returned is the end of that front part. -/
def Obligations.FramerBufferIsFifo : Prop :=
  ∀ (i : Instr) (d : Bytes) (s t : State) (r : Response),
    (i = .frPush d ∨ i = .frFeed d ∨ i = .frPop ∧ d = []) → exec i s = .next t → t.outbox = s.outbox ++ [r] →
    r.sts.isError = false →
    ∃ n ≤ (s.fb ++ d).length, t.fb = (s.fb ++ d).drop n ∧
      (r.rdata = [] ∨ ∃ m, m + r.rdata.length = n ∧ r.rdata = slice (s.fb ++ d) m n)

/-- R160: the frames returned and the bytes left do not depend on how the stream was cut; no push overflows, and the run ends
with `NEED_MORE`. -/
def Obligations.ChunkingInvariance : Prop :=
  ∀ (ds ds' : List Bytes) (s : State), s.fatal = false → s.fb = [] →
    (∀ d ∈ ds, d.length ≤ 65535) → (∀ d ∈ ds', d.length ≤ 65535) → ds.flatten = ds'.flatten →
    (receive ds s).1 = (receive ds' s).1 ∧ (receive ds s).2.fb = (receive ds' s).2.fb ∧
    (∃ rs, (receive ds s).2.outbox = s.outbox ++ rs ∧ ∀ r ∈ rs, r.sts = .ok ∨ r.sts = .needMore) ∧
    (ds ≠ [] → ∃ r, (receive ds s).2.outbox.getLast? = some r ∧ r.sts = .needMore)

/-- R161: garbage with no false header in it is dropped, and the frame after it is returned, alone and whole: however the
bytes were cut into pushes, and whatever their number; in one push where one packet carries them all; and by one FR.POP of
a buffer that holds them. -/
def Obligations.GarbageBeforeFrameIsDropped : Prop :=
  ∀ g f : Bytes, hdrOk f 0 → f.length = declaredLen f 0 → (∀ j < g.length, ¬ hdrOk (g ++ f) j) →
    (∀ (ds : List Bytes) (s : State), s.fatal = false → s.fb = [] → (∀ d ∈ ds, d.length ≤ 65535) → ds.flatten = g ++ f →
      (receive ds s).1 = [f] ∧ (receive ds s).2.fb = []) ∧
    (∀ s : State, s.fatal = false → s.fb = [] → (g ++ f).length ≤ 65535 →
      ∃ t, exec (.frPush (g ++ f)) s = .next t ∧
        exec .frPop t = .next (respond .ok [0x00, 0x00, 0x00, 0x00] f { t with fb := [] })) ∧
    (∀ s : State, s.fatal = false → s.fb = g ++ f →
      exec .frPop s = .next (respond .ok [0x00, 0x00, 0x00, 0x00] f { s with fb := [] }))

-- System commands and the session key.

/-- R170: KEY.LOAD installs a key of legal length where there is none, and the checks come in this order; its packet. -/
def Obligations.KeyLoadInstallsOnce : Prop :=
  (∀ (k : Bytes) (s : State), s.fatal = false →
    exec (.keyLoad k) s = .next (
      if s.ksValid = true then raise .keyLocked s
      else if k.length ∈ cfg.params.keyLens then respond .ok [] [] { s with ks := k, ksValid := true }
      else raise .cryptoKeylen s)) ∧
  ∀ k : Bytes, k.length ≤ 65535 →
    ∃ d0 d1 : Byte, encode (.keyLoad k) = [0x50, 0x00, d0, d1] ++ k ∧ d0.toNat + 256 * d1.toNat = k.length

/-- R171: KEY.CLR forgets the key and touches nothing else; its packet. -/
def Obligations.KeyClrForgetsKey : Prop :=
  (∀ s : State, s.fatal = false → exec .keyClr s = .next (respond .ok [] [] { s with ks := [], ksValid := false })) ∧
  encode .keyClr = [0x51, 0x00, 0x00, 0x00]

/-- R172, R28: STAT.RD answers the eight bytes of STAT, whatever FATAL is, and changes nothing else; its packet. -/
def Obligations.StatRdShowsState : Prop :=
  (∀ s : State, s.Inv → ∃ res, exec .statRd s = .next (respond .ok res [] s) ∧ res.length = 8 ∧
    (le32 (slice res 0 4)).toNat = s.fb.length ∧
    (∃ b, res[4]? = some b ∧ b.toNat = s.ks.length) ∧
    (∃ b, res[5]? = some b ∧ b.toNat = s.ksValid.toNat + 2 * s.fatal.toNat) ∧
    res[6]? = some s.lastErr ∧ res[7]? = some 0x00) ∧
  encode .statRd = [0x52, 0x00, 0x00, 0x00]

/-- R173: between resets KS_VALID changes only by KEY.LOAD and KEY.CLR, and while it is 1 KS does not change. -/
def Obligations.KeyLifecycle : Prop :=
  ∀ s t : State, step s = .next t → (∀ rest, s.inbox ≠ .reset :: rest) →
    (s.ksValid = true → t.ksValid = true → t.ks = s.ks) ∧
    (s.ksValid = false → t.ksValid = true →
      ∃ c rest, s.inbox = .packet c :: rest ∧ decodeCmd c = .ok (.keyLoad t.ks)) ∧
    (s.ksValid = true → t.ksValid = false → ∃ c rest, s.inbox = .packet c :: rest ∧ decodeCmd c = .ok .keyClr)

/-- R25: a command that does not name slot SESSION shows nothing of KS but its length: two states that differ in the bytes of KS
alone give the same responses and go on to states that agree in everything else. -/
def Obligations.SessionKeyBytesAreNotShown : Prop :=
  ∀ (i : Instr) (s t : State) (k : Bytes), ¬ usesSession i → k.length = s.ks.length → exec i s = .next t →
    ∃ k', exec i { s with ks := k } = .next { t with ks := k' } ∧ k'.length = t.ks.length

/-- R187: the two causes of `E_CRYPTO_KEYLEN`, and no other. -/
def Obligations.KeylenErrorHasTwoCauses : Prop :=
  ∀ (i : Instr) (s t : State) (r : Response), s.fatal = false → exec i s = .next t → t.outbox = s.outbox ++ [r] →
    (r.sts = .cryptoKeylen ↔
      (usesSession i ∧ s.ksValid = false) ∨
      (∃ k, i = .keyLoad k ∧ s.ksValid = false ∧ k.length ∉ cfg.params.keyLens))

-- Invariants.

/-- R22, R24, R27: every step keeps the invariant. -/
def Obligations.EveryStepKeepsInv : Prop := ∀ s t : State, s.Inv → step s = .next t → t.Inv

/-- R31: the reset state meets it. -/
def Obligations.ResetMeetsInv : Prop := State.reset.Inv

/-- R84, R13: every step keeps every response within its packet's fields; DATA of a legal packet is at most 65535 bytes, so
`RDATA` is too. -/
def Obligations.EveryStepKeepsResponsesFit : Prop := ∀ s t : State, s.ResponsesFit → step s = .next t → t.ResponsesFit

-- Encoding.

/-- R80 to R89: decoding an encoded command gives it back, with every operand at every value. -/
def Obligations.DecodeOfEncode : Prop := ∀ i : Instr, i.wellFormed = true → decodeCmd (encode i) = .ok i

/-- R80 to R89: a packet that decodes is the one packet of the command it decodes to, and that command is well-formed. -/
def Obligations.EncodeOfDecode : Prop :=
  ∀ (c : Bytes) (i : Instr), decodeCmd c = .ok i → encode i = c ∧ i.wellFormed = true

/-- R86: a packet that decodes selects its own row of the opcode table and no other. -/
def Obligations.DecodedPacketSelectsOneRow : Prop :=
  ∀ (c : Bytes) (i : Instr), decodeCmd c = .ok i → ∀ op : Opcode, op.selects (packetWord c) = true ↔ op = i.opcode

/-- R80 to R82, on packets written out byte by byte (V-EN-1 to V-EN-8 of 95_test_vectors, and P1 step 9). -/
def Obligations.SamplePacketsDecode : Prop :=
  decodeCmd [0x10, 0x00, 0x01, 0x00, 0x01] = .ok (.ecbEnc .master [0x01]) ∧
  decodeCmd [0x10, 0x01, 0x01, 0x00, 0x01] = .ok (.ecbEnc .visit [0x01]) ∧
  decodeCmd [0x20, 0x04, 0x00, 0x00, 0x00, 0x00, 0x02, 0x01, 0xFE, 0xFF, 0xFF, 0xFF, 0x07, 0x00, 0x01, 0x00, 0x04, 0x03,
    0x44, 0x33, 0x22, 0x11, 0x00, 0x00, 0x00, 0x65] =
    .ok (.hdrEnc .session ⟨0, 0x0102, 0xFFFFFFFE, 7, 1, 0, 0x0304, 0x11223344, 0x65000000⟩) ∧
  decodeCmd [0x21, 0x07, 0x02, 0x00, 0x02, 0x00, 0x02, 0x00, 0x00, 0x00, 0x00, 0x00, 0x01, 0x00, 0x00, 0x00, 0x00, 0x00,
    0x00, 0x00, 0x00, 0x00, 0x00, 0x00, 0x00, 0x00, 0xAA, 0xBB] =
    .ok (.frmEnc .none .session ⟨2, 2, 0, 1, 0, 0, 0, 0, 0⟩ [0xAA, 0xBB]) ∧
  decodeCmd [0x30, 0x03, 0x03, 0x00, 0x01, 0x02, 0x03] = .ok (.sigGen .none [0x01, 0x02, 0x03]) ∧
  decodeCmd [0x40, 0x00, 0x02, 0x00, 0x53, 0x54] = .ok (.frPush [0x53, 0x54]) ∧
  decodeCmd [0x41, 0x00, 0x00, 0x00] = .ok .frPop ∧
  decodeCmd [0x52, 0x00, 0x00, 0x00] = .ok .statRd ∧
  decodeCmd [0x50, 0x00, 0x10, 0x00, 0xC0, 0xC1, 0xC2, 0xC3, 0xC4, 0xC5, 0xC6, 0xC7, 0xC8, 0xC9, 0xCA, 0xCB, 0xCC, 0xCD,
    0xCE, 0xCF] = .ok (.keyLoad [0xC0, 0xC1, 0xC2, 0xC3, 0xC4, 0xC5, 0xC6, 0xC7, 0xC8, 0xC9, 0xCA, 0xCB, 0xCC, 0xCD, 0xCE, 0xCF])
end

