-- ==== Sys2Proof/Laws/Bytes.lean ====
section
/-! SUPPORT. Slices and little-endian conversions. -/

namespace Sys2Proof

theorem lacks_eq : ∀ (b : Bytes) (n : Nat), lacks b n = decide (b.length < n)
  | [], 0 => by simp [lacks]
  | _ :: _, 0 => by simp [lacks]
  | [], _ + 1 => by simp [lacks]
  | _ :: b, n + 1 => by simp [lacks, lacks_eq b n]

theorem lacks_iff {b : Bytes} {n : Nat} : lacks b n = true ↔ b.length < n := by simp [lacks_eq]

@[simp] theorem rep_length (v : Byte) (n : Nat) : (rep v n).length = n := by simp [rep]

@[simp] theorem le16bytes_length (v : U16) : (le16bytes v).length = 2 := rfl

@[simp] theorem le32bytes_length (v : U32) : (le32bytes v).length = 4 := rfl

@[simp] theorem natBytes16_length (n : Nat) : (natBytes16 n).length = 2 := rfl

@[simp] theorem natBytes32_length (n : Nat) : (natBytes32 n).length = 4 := rfl

@[simp] theorem le32bytesS_length (v : Int) : (le32bytesS v).length = 4 := rfl

/-- The bytes of an `i32` field are those of its 32 bits (R17). -/
@[simp] theorem le32bytesS_toInt (v : U32) : le32bytesS v.toInt = le32bytes v := by simp [le32bytesS]

/-- One more byte at the low end multiplies by 256 and adds. -/
theorem append_byte_toNat {w : Nat} (hi : BitVec w) (lo : Byte) : (hi ++ lo).toNat = 256 * hi.toNat + lo.toNat := by
  rw [BitVec.toNat_append, Nat.shiftLeft_eq, Nat.mul_comm, ← Nat.two_pow_add_eq_or_of_lt lo.isLt]

/-- `le16` as R17 writes it. -/
theorem le16_toNat (a b : Byte) (t : Bytes) : (le16 (a :: b :: t)).toNat = a.toNat + 256 * b.toNat := by
  simp only [le16, byteAt, List.getD_cons_zero, List.getD_cons_succ, append_byte_toNat]
  omega

/-- `le32` as R17 writes it. -/
theorem le32_toNat (a b c d : Byte) (t : Bytes) :
    (le32 (a :: b :: c :: d :: t)).toNat = a.toNat + 2 ^ 8 * b.toNat + 2 ^ 16 * c.toNat + 2 ^ 24 * d.toNat := by
  simp only [le32, byteAt, List.getD_cons_zero, List.getD_cons_succ, append_byte_toNat]
  omega

@[simp] theorem le16_le16bytes (v : U16) : le16 (le16bytes v) = v := by
  apply BitVec.eq_of_toNat_eq
  rw [le16bytes, le16_toNat]
  simp only [BitVec.extractLsb'_toNat, Nat.shiftRight_eq_div_pow]
  have := v.isLt
  omega

@[simp] theorem le32_le32bytes (v : U32) : le32 (le32bytes v) = v := by
  apply BitVec.eq_of_toNat_eq
  rw [le32bytes, le32_toNat]
  simp only [BitVec.extractLsb'_toNat, Nat.shiftRight_eq_div_pow]
  have := v.isLt
  omega

theorem le16_natBytes16 {n : Nat} (h : n < 2 ^ 16) : (le16 (natBytes16 n)).toNat = n := by
  rw [natBytes16, le16_le16bytes, BitVec.toNat_ofNat, Nat.mod_eq_of_lt h]

theorem le32_natBytes32 {n : Nat} (h : n < 2 ^ 32) : (le32 (natBytes32 n)).toNat = n := by
  rw [natBytes32, le32_le32bytes, BitVec.toNat_ofNat, Nat.mod_eq_of_lt h]

/-- Two bytes are the little-endian bytes of the number they give. -/
theorem le16bytes_le16 (a b : Byte) : le16bytes (le16 [a, b]) = [a, b] := by
  simp only [le16bytes, List.cons.injEq, and_true]
  constructor <;> apply BitVec.eq_of_toNat_eq <;>
    simp only [BitVec.extractLsb'_toNat, Nat.shiftRight_eq_div_pow, le16_toNat] <;>
    have := a.isLt <;> have := b.isLt <;> omega

/-- Four bytes are the little-endian bytes of the number they give. -/
theorem le32bytes_le32 (a b c d : Byte) : le32bytes (le32 [a, b, c, d]) = [a, b, c, d] := by
  simp only [le32bytes, List.cons.injEq, and_true]
  refine ⟨?_, ?_, ?_, ?_⟩ <;> apply BitVec.eq_of_toNat_eq <;>
    simp only [BitVec.extractLsb'_toNat, Nat.shiftRight_eq_div_pow, le32_toNat] <;>
    have := a.isLt <;> have := b.isLt <;> have := c.isLt <;> have := d.isLt <;> omega

theorem slice_length {b : Bytes} {i j : Nat} (hj : j ≤ b.length) : (slice b i j).length = j - i := by
  simp [slice]; omega

theorem slice_zero (b : Bytes) (j : Nat) : slice b 0 j = b.take j := by simp [slice]

theorem slice_to_end (b : Bytes) (i : Nat) : slice b i b.length = b.drop i := by
  simp [slice, List.take_of_length_le]

/-- A slice counted from a later offset. -/
theorem slice_drop (b : Bytes) (k i j : Nat) : slice (b.drop k) i j = slice b (k + i) (k + j) := by
  simp [slice, List.drop_drop, show k + j - (k + i) = j - i by omega]

/-- A slice of the front part does not see what follows it. -/
theorem slice_append_left {a b : Bytes} {i j : Nat} (h : j ≤ a.length) : slice (a ++ b) i j = slice a i j := by
  rcases Nat.le_total i j with hij | hij
  · simp only [slice]
    rw [List.drop_append_of_le_length (by omega), List.take_append_of_le_length (by simp; omega)]
  · simp [slice, show j - i = 0 by omega]

/-- A slice of what follows the front part. -/
theorem slice_append_right {a b : Bytes} {i j : Nat} (h : a.length ≤ i) :
    slice (a ++ b) i j = slice b (i - a.length) (j - a.length) := by
  simp only [slice, List.drop_append, List.drop_eq_nil_of_le h, List.nil_append]
  congr 1
  omega

/-- Adjacent slices join. -/
theorem slice_append_slice {b : Bytes} {i j k : Nat} (hij : i ≤ j) (hjk : j ≤ k) :
    slice b i j ++ slice b j k = slice b i k := by
  have h1 : k - i = (j - i) + (k - j) := by omega
  have h2 : b.drop j = (b.drop i).drop (j - i) := by rw [List.drop_drop]; congr 1; omega
  simp only [slice]
  rw [h1, List.take_add, h2]

/-- A string of two bytes, written out. -/
theorem ByteN.two (m : ByteN 2) : ∃ a b, m.1 = [a, b] := List.length_eq_two.mp m.2

end Sys2Proof
end

