-- ==== Sys2Proof/Laws/Cipher.lean ====
section
/-! SUPPORT. Padding and the blockwise map (30_encoding R76 to R78). -/

namespace Sys2Proof.Machine

theorem padLen_bounds (n : Nat) : 1 ≤ padLen n ∧ padLen n ≤ 16 := by
  simp only [padLen, blockBytes]; omega

/-- The length of a padded plaintext (R76). -/
theorem pad_length (p : Bytes) : (pad p).length = 16 * (p.length / 16 + 1) := by
  simp only [pad, List.length_append, rep_length, padLen, blockBytes]; omega

theorem pad_byte_toNat (n : Nat) : (BitVec.ofNat 8 (padLen n)).toNat = padLen n := by
  have := padLen_bounds n
  rw [BitVec.toNat_ofNat, Nat.mod_eq_of_lt (by omega)]

/-- Padding comes off again (R76). -/
theorem unpad_pad (p : Bytes) : unpad (pad p) = some p := by
  have hb := padLen_bounds p.length
  have hl : (pad p).length = p.length + padLen p.length := by simp [pad]
  have hv : byteAt (pad p) ((pad p).length - 1) = BitVec.ofNat 8 (padLen p.length) := by
    rw [hl, byteAt, pad, List.getD_eq_getElem?_getD, List.getElem?_append_right (by omega)]
    simp [rep, show p.length + padLen p.length - 1 - p.length < padLen p.length by omega]
  simp only [unpad, hv, pad_byte_toNat, blockBytes]
  have hs : slice (pad p) ((pad p).length - padLen p.length) (pad p).length =
      rep (BitVec.ofNat 8 (padLen p.length)) (padLen p.length) := by
    rw [slice_to_end, hl, Nat.add_sub_cancel, pad, List.drop_left]
  rw [if_pos ⟨hb.1, hb.2, hs⟩, hl, Nat.add_sub_cancel, slice_zero, pad, List.take_left]

/-- Unpadding, its cases in plain list terms (R76). -/
theorem unpad_eq (q : Bytes) (v : Byte) (hv : byteAt q (q.length - 1) = v) :
    unpad q = if 1 ≤ v.toNat ∧ v.toNat ≤ 16 ∧ q.drop (q.length - v.toNat) = List.replicate v.toNat v
      then some (q.take (q.length - v.toNat)) else none := by
  subst hv
  simp only [unpad, slice_to_end, slice_zero]
  exact if_congr Iff.rfl rfl rfl

/-- What unpadding gives, and how many bytes it takes off (R76, R104). -/
theorem unpad_some {q p : Bytes} (hq : 16 ≤ q.length) (h : unpad q = some p) :
    ∃ n, 1 ≤ n ∧ n ≤ 16 ∧ p = q.take (q.length - n) ∧ p.length + n = q.length := by
  simp only [unpad] at h
  split at h
  · rename_i hc
    cases h
    refine ⟨_, hc.1, hc.2.1, slice_zero _ _, ?_⟩
    have := hc.2.1
    simp only [blockBytes] at this
    rw [slice_zero, List.length_take]; omega
  · cases h

theorem firstBlock_val {q : Bytes} (h : 16 ≤ q.length) : (firstBlock q).1 = q.take 16 := by
  simp only [firstBlock, blockBytes]
  rw [List.take_append_of_le_length h]

/-- A block is the one its bytes name. -/
theorem firstBlock_append (b : Block) (q : Bytes) : firstBlock (b.1 ++ q) = b := by
  apply Subtype.ext
  rw [firstBlock_val (by simp [b.2]), List.take_append_of_le_length (by simp [b.2]), List.take_of_length_le (by simp [b.2])]

@[simp] theorem mapBlocks_length (f : Block → Block) : ∀ (n : Nat) (q : Bytes), (mapBlocks f n q).length = 16 * n
  | 0, _ => rfl
  | n + 1, q => by simp [mapBlocks, mapBlocks_length f n, (f (firstBlock q)).2]; omega

/-- Each block is mapped alone, in its place (R77). -/
theorem mapBlocks_slice (f : Block → Block) : ∀ (n : Nat) (q : Bytes) (j : Nat), j < n →
    slice (mapBlocks f n q) (16 * j) (16 * j + 16) = (f (firstBlock (q.drop (16 * j)))).1
  | n + 1, q, 0, _ => by
    rw [mapBlocks, slice_append_left (by simp [(f (firstBlock q)).2]), slice_zero]
    simp [(f (firstBlock q)).2]
  | n + 1, q, j + 1, h => by
    have hl := (f (firstBlock q)).2
    rw [mapBlocks, slice_append_right (by omega), hl, show 16 * (j + 1) - 16 = 16 * j by omega,
      show 16 * (j + 1) + 16 - 16 = 16 * j + 16 by omega, mapBlocks_slice f n _ j (by omega), List.drop_drop]
    congr 4
    simp only [blockBytes]; omega

/-- A blockwise inverse undoes a blockwise map. -/
theorem mapBlocks_inverse {f g : Block → Block} (h : ∀ b, g (f b) = b) : ∀ (n : Nat) (q : Bytes), q.length = 16 * n →
    mapBlocks g n (mapBlocks f n q) = q
  | 0, q, hq => (List.length_eq_zero_iff.mp (by simpa using hq)).symm
  | n + 1, q, hq => by
    have hl := (f (firstBlock q)).2
    rw [mapBlocks, mapBlocks, firstBlock_append, h, firstBlock_val (by omega)]
    rw [show (((f (firstBlock q)).1 ++ mapBlocks f n (q.drop blockBytes)).drop blockBytes) = mapBlocks f n (q.drop blockBytes) from
      List.drop_left' hl]
    rw [mapBlocks_inverse h n _ (by simp [blockBytes]; omega)]
    exact List.take_append_drop 16 q

theorem ecbEnc_length (c : Config) (k q : Bytes) : (ecbEnc c k q).length = 16 * (q.length / 16) := by
  simp [ecbEnc, blockBytes]

theorem ecbDec_length (c : Config) (k q : Bytes) : (ecbDec c k q).length = 16 * (q.length / 16) := by
  simp [ecbDec, blockBytes]

/-- Deciphering undoes enciphering under a key of legal length (R8's CIPHER_INV, blockwise). -/
theorem ecbDec_ecbEnc {c : Config} {k q : Bytes} (hk : k.length ∈ c.params.keyLens) (hq : q.length % 16 = 0) :
    ecbDec c k (ecbEnc c k q) = q := by
  rw [ecbDec, ecbEnc_length, ecbEnc, blockBytes, Nat.mul_div_cancel_left _ (by omega)]
  exact mapBlocks_inverse (fun b => c.legal.dec_enc k b hk) _ _ (by omega)

end Sys2Proof.Machine
end

