-- ==== Sys2Proof/Laws/Codec.lean ====
section
/-! SUPPORT. The 40 header bytes field by field (30_encoding R70), and frames built from them. -/

namespace Sys2Proof.Machine

/-- The header as its forty bytes, once the markers are written out. -/
theorem headerBytes_eq (c : Config) (v : VersionSel) (h : Hdesc) (n : Nat) :
    ∃ s0 s1 e0 e1, c.params.startMarker.1 = [s0, s1] ∧ c.params.endMarker.1 = [e0, e1] ∧
      headerBytes c v h n = [s0, s1] ++ natBytes16 (44 + n) ++ le16bytes (versionOf c v) ++ le16bytes h.cmd ++ le32bytes h.sid
        ++ le16bytes h.ser ++ [h.dir, h.err] ++ le16bytes h.ctl ++ le32bytes h.uid ++ [0, 0] ++ le32bytes h.ts
        ++ [0, 0, 0, 0, 0, 0, 0, 0, 0, 0] ++ [e0, e1] := by
  obtain ⟨s0, s1, hs⟩ := ByteN.two c.params.startMarker
  obtain ⟨e0, e1, he⟩ := ByteN.two c.params.endMarker
  refine ⟨s0, s1, e0, e1, hs, he, ?_⟩
  simp [headerBytes, hs, he, hdrBytes, sigBytes, rep, List.replicate, show 40 + n + 4 = 44 + n by omega]

@[simp] theorem headerBytes_length (c : Config) (v : VersionSel) (h : Hdesc) (n : Nat) : (headerBytes c v h n).length = 40 := by
  obtain ⟨s0, s1, e0, e1, _, _, e⟩ := headerBytes_eq c v h n
  rw [e]; rfl

/-- Every field of the header at its offset (R70). -/
theorem headerBytes_fields (c : Config) (v : VersionSel) (h : Hdesc) (n : Nat) :
    slice (headerBytes c v h n) 0 2 = c.params.startMarker.1 ∧
    slice (headerBytes c v h n) 2 4 = natBytes16 (44 + n) ∧
    slice (headerBytes c v h n) 4 6 = le16bytes (versionOf c v) ∧
    slice (headerBytes c v h n) 6 8 = le16bytes h.cmd ∧
    slice (headerBytes c v h n) 8 12 = le32bytes h.sid ∧
    slice (headerBytes c v h n) 12 14 = le16bytes h.ser ∧
    byteAt (headerBytes c v h n) 14 = h.dir ∧
    byteAt (headerBytes c v h n) 15 = h.err ∧
    slice (headerBytes c v h n) 16 18 = le16bytes h.ctl ∧
    slice (headerBytes c v h n) 18 22 = le32bytes h.uid ∧
    slice (headerBytes c v h n) 22 24 = [0, 0] ∧
    slice (headerBytes c v h n) 24 28 = le32bytes h.ts ∧
    slice (headerBytes c v h n) 28 38 = [0, 0, 0, 0, 0, 0, 0, 0, 0, 0] ∧
    slice (headerBytes c v h n) 38 40 = c.params.endMarker.1 := by
  obtain ⟨s0, s1, e0, e1, hs, he, e⟩ := headerBytes_eq c v h n
  rw [e, hs, he]
  refine ⟨?_, ?_, ?_, ?_, ?_, ?_, ?_, ?_, ?_, ?_, ?_, ?_, ?_, ?_⟩ <;> rfl

theorem byteAt_append_left {a b : Bytes} {i : Nat} (h : i < a.length) : byteAt (a ++ b) i = byteAt a i := by
  simp [byteAt, List.getElem?_append_left h]

/-- The declared length of a frame built from a header (R71, R125: no wrap). -/
theorem totalLength_headerBytes (c : Config) (v : VersionSel) (h : Hdesc) {n : Nat} (hn : n ≤ 65491) (r : Bytes) :
    totalLength (headerBytes c v h n ++ r) = 44 + n := by
  rw [totalLength, slice_append_left (by simp), (headerBytes_fields c v h n).2.1, le16_natBytes16 (by omega)]

theorem mkHeader_fits {c : Config} {v : VersionSel} {h : Hdesc} {n : Nat} (hn : n ≤ 65491) :
    mkHeader c v h n = some (headerBytes c v h n) := by
  simp [mkHeader, maxPayload]; omega

theorem mkHeader_oversize {c : Config} {v : VersionSel} {h : Hdesc} {n : Nat} (hn : 65491 < n) : mkHeader c v h n = none := by
  simp [mkHeader, maxPayload]; omega

theorem frameLengthOk_iff {d : Bytes} : frameLengthOk d = true ↔ 44 ≤ d.length ∧ totalLength d = d.length := by
  simp [frameLengthOk, lacks_eq, minFrame]

/-- A frame built from a header, a payload that fits and four signature bytes has a consistent length (R71). -/
theorem built_frameLengthOk (c : Config) (v : VersionSel) (h : Hdesc) (p : Bytes) (sg : ByteN 4) (hp : p.length ≤ 65491) :
    frameLengthOk (headerBytes c v h p.length ++ p ++ sg.1) = true := by
  rw [frameLengthOk_iff, List.append_assoc, totalLength_headerBytes c v h hp]
  simp [sg.2]; omega

/-- The result block of FRM.DEC is three runs of the frame's bytes (R122). -/
theorem rdesc_eq {d : Bytes} (h : frameLengthOk d = true) :
    rdesc d = slice d 2 22 ++ slice d 24 28 ++ slice d (d.length - 4) d.length := by
  obtain ⟨hl, ht⟩ := frameLengthOk_iff.mp h
  have h2 : natBytes16 (totalLength d) = slice d 2 4 := by
    have hlen : (slice d 2 4).length = 2 := by rw [slice_length (by omega)]
    obtain ⟨a, b, e⟩ := List.length_eq_two.mp hlen
    rw [totalLength, e, natBytes16, BitVec.ofNat_toNat, BitVec.setWidth_eq, le16bytes_le16]
  have hb : ∀ i, i < d.length → [byteAt d i] = slice d i (i + 1) := by
    intro i hi
    have : d.drop i = d[i] :: d.drop (i + 1) := List.drop_eq_getElem_cons hi
    rw [slice, this, Nat.add_sub_cancel_left, byteAt, List.getD_eq_getElem _ _ hi, List.take_succ_cons, List.take_zero]
  rw [rdesc, h2, hb 14 (by omega), hb 15 (by omega)]
  rw [slice_append_slice (by omega) (by omega), slice_append_slice (by omega) (by omega), slice_append_slice (by omega) (by omega),
    slice_append_slice (by omega) (by omega), slice_append_slice (by omega) (by omega), slice_append_slice (by omega) (by omega),
    slice_append_slice (by omega) (by omega), slice_append_slice (by omega) (by omega)]
  rfl

theorem rdesc_length {d : Bytes} (h : frameLengthOk d = true) : (rdesc d).length = 28 := by
  obtain ⟨hl, _⟩ := frameLengthOk_iff.mp h
  rw [rdesc_eq h]
  simp only [List.length_append, slice_length (b := d) (i := 2) (j := 22) (by omega),
    slice_length (b := d) (i := 24) (j := 28) (by omega), slice_length (b := d) (le_refl _)]
  omega

end Sys2Proof.Machine
end

