-- ==== Sys2Proof/Laws/Decode.lean ====
section
/-! SUPPORT. The packet's parts and their inverses (30_encoding R80 to R89), and what a packet that decodes looks like. -/

namespace Sys2Proof

@[simp] theorem Opcode.ofByte_code (o : Opcode) : Opcode.ofByte o.code = some o := by cases o <;> decide

theorem Opcode.ofByte_eq_some {b : Byte} {o : Opcode} (h : Opcode.ofByte b = some o) : b = o.code := by
  have := List.find?_some h
  exact (beq_iff_eq.mp this).symm

theorem Opcode.code_injective {o o' : Opcode} (h : o.code = o'.code) : o = o' := by
  have := Opcode.ofByte_code o
  rw [h, Opcode.ofByte_code] at this
  cases this; rfl

@[simp] theorem CipherSlot.ofKsel_ksel (k : CipherSlot) : CipherSlot.ofKsel k.slot.ksel = some k := by cases k <;> decide

@[simp] theorem SignSlot.ofKsel_ksel (k : SignSlot) : SignSlot.ofKsel k.slot.ksel = some k := by cases k <;> decide

@[simp] theorem VersionSel.ofVsel_vsel (v : VersionSel) : VersionSel.ofVsel v.vsel = v := by cases v <;> decide

@[simp] theorem VersionSel.vsel_ofVsel (v : BitVec 1) : (VersionSel.ofVsel v).vsel = v := by revert v; decide

theorem CipherSlot.ksel_ofKsel : ∀ {b : BitVec 2} {k : CipherSlot}, CipherSlot.ofKsel b = some k → k.slot.ksel = b := by decide

theorem SignSlot.ksel_ofKsel : ∀ {b : BitVec 2} {k : SignSlot}, SignSlot.ofKsel b = some k → k.slot.ksel = b := by decide

/-- The `MOD` byte's fields (R81). -/
theorem modByte_fields : ∀ (k : BitVec 2) (v : BitVec 1), (modByte k v).extractLsb' 0 2 = k ∧ (modByte k v).extractLsb' 2 1 = v ∧
    (modByte k v).extractLsb' 3 5 = 0 := by decide

/-- A `MOD` byte with reserved bits 0 is the one its fields make (R81). -/
theorem modByte_of_fields : ∀ m : Byte, m.extractLsb' 3 5 = 0 → modByte (m.extractLsb' 0 2) (m.extractLsb' 2 1) = m := by
  decide +revert

@[simp] theorem Hdesc.bytes_length (h : Hdesc) : h.bytes.length = 22 := rfl

/-- The argument block holds every field (R82). -/
@[simp] theorem Hdesc.ofBytes_bytes (h : Hdesc) : Hdesc.ofBytes h.bytes = h := by
  have e : Hdesc.ofBytes h.bytes = ⟨le16 (le16bytes h.plen), le16 (le16bytes h.cmd), le32 (le32bytes h.sid),
    le16 (le16bytes h.ser), h.dir, h.err, le16 (le16bytes h.ctl), le32 (le32bytes h.uid), le32 (le32bytes h.ts)⟩ := rfl
  rw [e]; simp

/-- Twenty-two bytes are the argument block of the descriptor they give (R82). -/
theorem Hdesc.bytes_ofBytes {a : Bytes} (h : a.length = 22) : (Hdesc.ofBytes a).bytes = a := by
  match a, h with
  | [a0, a1, a2, a3, a4, a5, a6, a7, a8, a9, a10, a11, a12, a13, a14, a15, a16, a17, a18, a19, a20, a21], _ =>
    have e : (Hdesc.ofBytes [a0, a1, a2, a3, a4, a5, a6, a7, a8, a9, a10, a11, a12, a13, a14, a15, a16, a17, a18, a19, a20,
        a21]).bytes = le16bytes (le16 [a0, a1]) ++ le16bytes (le16 [a2, a3]) ++ le32bytes (le32 [a4, a5, a6, a7])
        ++ le16bytes (le16 [a8, a9]) ++ [a10] ++ [a11] ++ le16bytes (le16 [a12, a13]) ++ le32bytes (le32 [a14, a15, a16, a17])
        ++ le32bytes (le32 [a18, a19, a20, a21]) := rfl
    rw [e]; simp [le16bytes_le16, le32bytes_le32]

theorem Instr.arg_length (i : Instr) : i.arg.length = i.opcode.argLen := by cases i <;> rfl

/-- `len(C) = 4 + A + DLEN` (R80). -/
theorem encode_length (i : Instr) : (encode i).length = 4 + i.opcode.argLen + i.data.length := by
  simp [encode, i.arg_length]; omega

theorem encode_byte0 (i : Instr) : byteAt (encode i) 0 = i.opcode.code := rfl

theorem encode_byte1 (i : Instr) : byteAt (encode i) 1 = modByte i.ksel i.vsel := rfl

theorem encode_dlen (i : Instr) (h : i.data.length ≤ 65535) : dlenOf (encode i) = i.data.length := by
  have e : dlenOf (encode i) = (le16 (natBytes16 i.data.length)).toNat := rfl
  rw [e, le16_natBytes16 (by omega)]

/-- The fields of an encoded command: argument block and data (R80). -/
theorem encode_arg (i : Instr) : slice (encode i) 4 (4 + i.opcode.argLen) = i.arg := by
  have e : encode i = ([i.opcode.code, modByte i.ksel i.vsel] ++ natBytes16 i.data.length) ++ (i.arg ++ i.data) := by
    simp [encode]
  rw [e, slice_append_right (by simp), show ([i.opcode.code, modByte i.ksel i.vsel] ++ natBytes16 i.data.length).length = 4 by simp,
    Nat.sub_self, Nat.add_sub_cancel_left, ← i.arg_length, slice_append_left (by simp), slice_to_end]
  rfl

theorem encode_data (i : Instr) : (encode i).drop (4 + i.opcode.argLen) = i.data := by
  have e : encode i = ([i.opcode.code, modByte i.ksel i.vsel] ++ natBytes16 i.data.length ++ i.arg) ++ i.data := rfl
  rw [e, ← i.arg_length]
  exact List.drop_left' (by simp; omega)

/-- The first four bytes of an encoded command as one u32 (R86). -/
theorem packetWord_encode (i : Instr) :
    packetWord (encode i) = le32 (i.opcode.code :: modByte i.ksel i.vsel :: natBytes16 i.data.length) := rfl

/-- A packet that decodes passed every check of `decode_cmd` (R89). -/
theorem decodeCmd_ok {c : Bytes} {i : Instr} (h : decodeCmd c = .ok i) :
    ∃ op, 4 ≤ c.length ∧ byteAt c 0 = op.code ∧ c.length = 4 + op.argLen + dlenOf c ∧ (byteAt c 1).extractLsb' 3 5 = 0 ∧
      decodeBody op ((byteAt c 1).extractLsb' 0 2) ((byteAt c 1).extractLsb' 2 1)
        (slice c 4 (4 + op.argLen)) (c.drop (4 + op.argLen)) = .ok i := by
  unfold decodeCmd at h
  split at h
  · cases h
  · split at h
    · cases h
    · rename_i op hop
      split at h
      · cases h
      · split at h
        · cases h
        · exact ⟨op, by omega, Opcode.ofByte_eq_some hop, by omega, by simp_all, h⟩

/-- Conversely (R89). -/
theorem decodeCmd_of_checks {c : Bytes} {op : Opcode} (h4 : 4 ≤ c.length) (h0 : byteAt c 0 = op.code)
    (hl : c.length = 4 + op.argLen + dlenOf c) (hm : (byteAt c 1).extractLsb' 3 5 = 0) :
    decodeCmd c = decodeBody op ((byteAt c 1).extractLsb' 0 2) ((byteAt c 1).extractLsb' 2 1)
        (slice c 4 (4 + op.argLen)) (c.drop (4 + op.argLen)) := by
  have h4' : ¬ c.length < 4 := by omega
  have hl' : ¬ c.length ≠ 4 + op.argLen + dlenOf c := by omega
  have hm' : ¬ (byteAt c 1).extractLsb' 3 5 ≠ 0 := by simpa using hm
  unfold decodeCmd
  rw [if_neg h4', h0, Opcode.ofByte_code]
  dsimp only
  rw [if_neg hl', if_neg hm']

theorem withCipherSlot_ok {ks : BitVec 2} {r : CipherSlot → Except Illegal Instr} {i : Instr} (h : withCipherSlot ks r = .ok i) :
    ∃ k : CipherSlot, k.slot.ksel = ks ∧ r k = .ok i := by
  unfold withCipherSlot at h
  split at h
  · cases h
  · rename_i k hk; exact ⟨k, CipherSlot.ksel_ofKsel hk, h⟩

theorem withSignSlot_ok {ks : BitVec 2} {r : SignSlot → Except Illegal Instr} {i : Instr} (h : withSignSlot ks r = .ok i) :
    ∃ k : SignSlot, k.slot.ksel = ks ∧ r k = .ok i := by
  unfold withSignSlot at h
  split at h
  · cases h
  · rename_i k hk; exact ⟨k, SignSlot.ksel_ofKsel hk, h⟩

@[simp] theorem withCipherSlot_ksel (k : CipherSlot) (r : CipherSlot → Except Illegal Instr) :
    withCipherSlot k.slot.ksel r = r k := by simp [withCipherSlot]

@[simp] theorem withSignSlot_ksel (k : SignSlot) (r : SignSlot → Except Illegal Instr) :
    withSignSlot k.slot.ksel r = r k := by simp [withSignSlot]

theorem needKsel0_ok {ks : BitVec 2} {r : Except Illegal Instr} {i : Instr} (h : needKsel0 ks r = .ok i) :
    ks = 0 ∧ r = .ok i := by
  unfold needKsel0 at h
  split at h
  · cases h
  · rename_i hk; exact ⟨by simpa using hk, h⟩

theorem needVsel0_ok {vs : BitVec 1} {r : Except Illegal Instr} {i : Instr} (h : needVsel0 vs r = .ok i) :
    vs = 0 ∧ r = .ok i := by
  unfold needVsel0 at h
  split at h
  · cases h
  · rename_i hk; exact ⟨by simpa using hk, h⟩

theorem needDlen_ok {n : Nat} {d : Bytes} {r : Except Illegal Instr} {i : Instr} (h : needDlen n d r = .ok i) :
    d.length ≤ n ∧ r = .ok i := by
  unfold needDlen at h
  split at h
  · cases h
  · exact ⟨by omega, h⟩

theorem needDlen_fits {n : Nat} {d : Bytes} {r : Except Illegal Instr} (h : d.length ≤ n) : needDlen n d r = r :=
  if_neg (by omega)

/-- What the last checks of `decode_cmd` accept: the command has the packet's opcode, selectors, arguments and data, and is
well-formed (R83, R89). -/
theorem decodeBody_ok {op : Opcode} {ks : BitVec 2} {vs : BitVec 1} {arg data : Bytes} {i : Instr}
    (h : decodeBody op ks vs arg data = .ok i) (ha : arg.length = op.argLen) (hd : data.length ≤ maxData) :
    i.opcode = op ∧ i.ksel = ks ∧ i.vsel = vs ∧ i.arg = arg ∧ i.data = data ∧ i.wellFormed = true := by
  have hnil : op.argLen = 0 → arg = [] := fun h0 => List.length_eq_zero_iff.mp (by omega)
  have hwf : ∀ {j : Instr}, j.data.length ≤ j.maxDlen → j.plenAgrees = true → j.wellFormed = true := fun h1 h2 => by
    simp [Instr.wellFormed, h1, h2]
  cases op with
  | ecbEnc =>
    obtain ⟨k, rfl, h1⟩ := withCipherSlot_ok h
    obtain ⟨rfl, h2⟩ := needVsel0_ok h1
    obtain ⟨hl, h3⟩ := needDlen_ok h2
    cases h3
    exact ⟨rfl, rfl, rfl, (hnil rfl).symm, rfl, hwf hl rfl⟩
  | ecbDec =>
    obtain ⟨k, rfl, h1⟩ := withCipherSlot_ok h
    obtain ⟨rfl, h2⟩ := needVsel0_ok h1
    cases h2
    exact ⟨rfl, rfl, rfl, (hnil rfl).symm, rfl, hwf hd rfl⟩
  | hdrEnc =>
    obtain ⟨rfl, h1⟩ := needKsel0_ok h
    obtain ⟨hl, h2⟩ := needDlen_ok h1
    cases h2
    exact ⟨rfl, rfl, VersionSel.vsel_ofVsel _, Hdesc.bytes_ofBytes ha, (List.length_eq_zero_iff.mp (by omega)).symm,
      hwf (Nat.le_refl 0) rfl⟩
  | frmEnc =>
    obtain ⟨k, rfl, h1⟩ := withSignSlot_ok h
    split at h1
    · cases h1
    · rename_i hp
      cases h1
      exact ⟨rfl, rfl, VersionSel.vsel_ofVsel _, Hdesc.bytes_ofBytes ha, rfl, hwf hd (by
        simp only [Instr.plenAgrees, Hdesc.ofBytes, beq_iff_eq]; omega)⟩
  | frmDec =>
    obtain ⟨rfl, h1⟩ := needKsel0_ok h
    obtain ⟨rfl, h2⟩ := needVsel0_ok h1
    cases h2
    exact ⟨rfl, rfl, rfl, (hnil rfl).symm, rfl, hwf hd rfl⟩
  | sigGen =>
    obtain ⟨k, rfl, h1⟩ := withSignSlot_ok h
    obtain ⟨rfl, h2⟩ := needVsel0_ok h1
    cases h2
    exact ⟨rfl, rfl, rfl, (hnil rfl).symm, rfl, hwf hd rfl⟩
  | sigChk =>
    obtain ⟨k, rfl, h1⟩ := withSignSlot_ok h
    obtain ⟨rfl, h2⟩ := needVsel0_ok h1
    cases h2
    exact ⟨rfl, rfl, rfl, (hnil rfl).symm, rfl, hwf hd rfl⟩
  | frPush | frFeed | keyLoad =>
    obtain ⟨rfl, h1⟩ := needKsel0_ok h
    obtain ⟨rfl, h2⟩ := needVsel0_ok h1
    cases h2
    exact ⟨rfl, rfl, rfl, (hnil rfl).symm, rfl, hwf hd rfl⟩
  | frPop | frRst | keyClr | statRd =>
    obtain ⟨rfl, h1⟩ := needKsel0_ok h
    obtain ⟨rfl, h2⟩ := needVsel0_ok h1
    obtain ⟨hl, h3⟩ := needDlen_ok h2
    cases h3
    exact ⟨rfl, rfl, rfl, (hnil rfl).symm, (List.length_eq_zero_iff.mp (by omega)).symm, hwf (Nat.le_refl 0) rfl⟩

/-- The last checks accept the parts of a well-formed command (R83, R89). -/
theorem decodeBody_parts {i : Instr} (h : i.wellFormed = true) :
    decodeBody i.opcode i.ksel i.vsel i.arg i.data = .ok i := by
  simp only [Instr.wellFormed, Bool.and_eq_true, decide_eq_true_eq] at h
  obtain ⟨h1, h2⟩ := h
  cases i with
  | ecbEnc k d => exact (withCipherSlot_ksel k _).trans (needDlen_fits h1)
  | ecbDec k d => exact withCipherSlot_ksel k _
  | hdrEnc v hd =>
    show Except.ok (Instr.hdrEnc (VersionSel.ofVsel v.vsel) (Hdesc.ofBytes hd.bytes)) = _
    simp
  | frmEnc k v hd d =>
    refine (withSignSlot_ksel k _).trans ?_
    have e : (le16 (slice (Instr.frmEnc k v hd d).arg 0 2)).toNat = (Instr.frmEnc k v hd d).data.length := by
      have : slice (Instr.frmEnc k v hd d).arg 0 2 = le16bytes hd.plen := rfl
      rw [this, le16_le16bytes]
      exact beq_iff_eq.mp h2
    rw [if_neg (by simpa using e)]
    show Except.ok (Instr.frmEnc k (VersionSel.ofVsel v.vsel) (Hdesc.ofBytes hd.bytes) d) = _
    simp
  | sigGen k d => exact withSignSlot_ksel k _
  | sigChk k d => exact withSignSlot_ksel k _
  | frmDec _ | frPush _ | frPop | frFeed _ | frRst | keyLoad _ | keyClr | statRd => rfl

/-- A packet of the layout of R80 is its four parts in a row. -/
theorem packet_eq_parts {c : Bytes} {n : Nat} (h : 4 + n ≤ c.length) :
    c = [byteAt c 0, byteAt c 1] ++ slice c 2 4 ++ slice c 4 (4 + n) ++ c.drop (4 + n) := by
  match c, h with
  | a :: b :: r, h =>
    have e : slice (a :: b :: r) 2 4 ++ slice (a :: b :: r) 4 (4 + n) ++ (a :: b :: r).drop (4 + n) = r := by
      rw [slice_append_slice (by omega) (by omega), ← slice_to_end, slice_append_slice (by omega) (by omega), slice_to_end]
      rfl
    simp only [List.append_assoc] at e ⊢
    rw [e]; rfl
  | [a], h => simp at h; omega
  | [], h => simp at h

theorem dlenOf_le (c : Bytes) : dlenOf c ≤ 65535 := by
  have := (le16 (slice c 2 4)).isLt
  simp only [dlenOf]; omega

/-- The fields of a packet that decodes are those of the command it decodes to, which is well-formed (R80 to R83, R89). -/
theorem decodeCmd_parts {c : Bytes} {i : Instr} (h : decodeCmd c = .ok i) :
    4 ≤ c.length ∧ byteAt c 0 = i.opcode.code ∧ c.length = 4 + i.opcode.argLen + dlenOf c ∧
      (byteAt c 1).extractLsb' 3 5 = 0 ∧ i.ksel = (byteAt c 1).extractLsb' 0 2 ∧ i.vsel = (byteAt c 1).extractLsb' 2 1 ∧
      i.arg = slice c 4 (4 + i.opcode.argLen) ∧ i.data = c.drop (4 + i.opcode.argLen) ∧ i.wellFormed = true := by
  obtain ⟨op, h4, h0, hl, hm, hb⟩ := decodeCmd_ok h
  have hd := dlenOf_le c
  obtain ⟨rfl, h2, h3, h5, h6, h7⟩ := decodeBody_ok hb (by rw [slice_length (by omega)]; omega) (by simp [maxData]; omega)
  exact ⟨h4, h0, hl, hm, h2, h3, h5, h6, h7⟩

end Sys2Proof
end

