-- ==== Sys2Proof/Laws/State.lean ====
section
/-! SUPPORT. What each field is after each update of the state. -/

namespace Sys2Proof.Machine

@[simp] theorem State.setFb_fb (b : Bytes) (s : State) : (s.setFb b).fb = b := rfl
@[simp] theorem State.setFb_ks (b : Bytes) (s : State) : (s.setFb b).ks = s.ks := rfl
@[simp] theorem State.setFb_ksValid (b : Bytes) (s : State) : (s.setFb b).ksValid = s.ksValid := rfl
@[simp] theorem State.setFb_fatal (b : Bytes) (s : State) : (s.setFb b).fatal = s.fatal := rfl
@[simp] theorem State.setFb_lastErr (b : Bytes) (s : State) : (s.setFb b).lastErr = s.lastErr := rfl
@[simp] theorem State.setFb_inbox (b : Bytes) (s : State) : (s.setFb b).inbox = s.inbox := rfl
@[simp] theorem State.setFb_outbox (b : Bytes) (s : State) : (s.setFb b).outbox = s.outbox := rfl

@[simp] theorem State.setKey_fb (k : Bytes) (v : Bool) (s : State) : (s.setKey k v).fb = s.fb := rfl
@[simp] theorem State.setKey_ks (k : Bytes) (v : Bool) (s : State) : (s.setKey k v).ks = k := rfl
@[simp] theorem State.setKey_ksValid (k : Bytes) (v : Bool) (s : State) : (s.setKey k v).ksValid = v := rfl
@[simp] theorem State.setKey_fatal (k : Bytes) (v : Bool) (s : State) : (s.setKey k v).fatal = s.fatal := rfl
@[simp] theorem State.setKey_lastErr (k : Bytes) (v : Bool) (s : State) : (s.setKey k v).lastErr = s.lastErr := rfl
@[simp] theorem State.setKey_inbox (k : Bytes) (v : Bool) (s : State) : (s.setKey k v).inbox = s.inbox := rfl
@[simp] theorem State.setKey_outbox (k : Bytes) (v : Bool) (s : State) : (s.setKey k v).outbox = s.outbox := rfl

@[simp] theorem State.setErr_fb (e : Byte) (f : Bool) (s : State) : (s.setErr e f).fb = s.fb := rfl
@[simp] theorem State.setErr_ks (e : Byte) (f : Bool) (s : State) : (s.setErr e f).ks = s.ks := rfl
@[simp] theorem State.setErr_ksValid (e : Byte) (f : Bool) (s : State) : (s.setErr e f).ksValid = s.ksValid := rfl
@[simp] theorem State.setErr_fatal (e : Byte) (f : Bool) (s : State) : (s.setErr e f).fatal = f := rfl
@[simp] theorem State.setErr_lastErr (e : Byte) (f : Bool) (s : State) : (s.setErr e f).lastErr = e := rfl
@[simp] theorem State.setErr_inbox (e : Byte) (f : Bool) (s : State) : (s.setErr e f).inbox = s.inbox := rfl
@[simp] theorem State.setErr_outbox (e : Byte) (f : Bool) (s : State) : (s.setErr e f).outbox = s.outbox := rfl

@[simp] theorem State.setInbox_fb (q : List PortEvent) (s : State) : (s.setInbox q).fb = s.fb := rfl
@[simp] theorem State.setInbox_ks (q : List PortEvent) (s : State) : (s.setInbox q).ks = s.ks := rfl
@[simp] theorem State.setInbox_ksValid (q : List PortEvent) (s : State) : (s.setInbox q).ksValid = s.ksValid := rfl
@[simp] theorem State.setInbox_fatal (q : List PortEvent) (s : State) : (s.setInbox q).fatal = s.fatal := rfl
@[simp] theorem State.setInbox_lastErr (q : List PortEvent) (s : State) : (s.setInbox q).lastErr = s.lastErr := rfl
@[simp] theorem State.setInbox_inbox (q : List PortEvent) (s : State) : (s.setInbox q).inbox = q := rfl
@[simp] theorem State.setInbox_outbox (q : List PortEvent) (s : State) : (s.setInbox q).outbox = s.outbox := rfl

@[simp] theorem State.deliver_fb (r : Response) (s : State) : (s.deliver r).fb = s.fb := rfl
@[simp] theorem State.deliver_ks (r : Response) (s : State) : (s.deliver r).ks = s.ks := rfl
@[simp] theorem State.deliver_ksValid (r : Response) (s : State) : (s.deliver r).ksValid = s.ksValid := rfl
@[simp] theorem State.deliver_fatal (r : Response) (s : State) : (s.deliver r).fatal = s.fatal := rfl
@[simp] theorem State.deliver_lastErr (r : Response) (s : State) : (s.deliver r).lastErr = s.lastErr := rfl
@[simp] theorem State.deliver_inbox (r : Response) (s : State) : (s.deliver r).inbox = s.inbox := rfl
@[simp] theorem State.deliver_outbox (r : Response) (s : State) : (s.deliver r).outbox = s.outbox ++ [r] := rfl

end Sys2Proof.Machine
end

