-- ==== Sys2Proof/Laws/Ops.lean ====
section
/-! SUPPORT. What each shared operation over the state does: answering, raising, the latch, the key slots, and the framer
buffer's capacity. -/

namespace Sys2Proof.Machine

/-- `respond` adds one response and changes nothing else. -/
theorem respond_eq (sts : Status) (res rdata : Bytes) (s : State) :
    respond sts res rdata s = { s with outbox := s.outbox ++ [⟨sts, flagsByte s, res, rdata⟩] } := rfl

@[simp] theorem respond_fb (sts : Status) (a b : Bytes) (s : State) : (respond sts a b s).fb = s.fb := rfl
@[simp] theorem respond_ks (sts : Status) (a b : Bytes) (s : State) : (respond sts a b s).ks = s.ks := rfl
@[simp] theorem respond_ksValid (sts : Status) (a b : Bytes) (s : State) : (respond sts a b s).ksValid = s.ksValid := rfl
@[simp] theorem respond_fatal (sts : Status) (a b : Bytes) (s : State) : (respond sts a b s).fatal = s.fatal := rfl
@[simp] theorem respond_lastErr (sts : Status) (a b : Bytes) (s : State) : (respond sts a b s).lastErr = s.lastErr := rfl
@[simp] theorem respond_inbox (sts : Status) (a b : Bytes) (s : State) : (respond sts a b s).inbox = s.inbox := rfl
@[simp] theorem respond_outbox (sts : Status) (a b : Bytes) (s : State) :
    (respond sts a b s).outbox = s.outbox ++ [⟨sts, flagsByte s, a, b⟩] := rfl

@[simp] theorem raise_fb (e : Status) (s : State) : (raise e s).fb = s.fb := rfl
@[simp] theorem raise_ks (e : Status) (s : State) : (raise e s).ks = s.ks := rfl
@[simp] theorem raise_ksValid (e : Status) (s : State) : (raise e s).ksValid = s.ksValid := rfl
@[simp] theorem raise_fatal (e : Status) (s : State) : (raise e s).fatal = (s.fatal || e.isFatal) := rfl
@[simp] theorem raise_lastErr (e : Status) (s : State) : (raise e s).lastErr = e.code := rfl
@[simp] theorem raise_inbox (e : Status) (s : State) : (raise e s).inbox = s.inbox := rfl
@[simp] theorem raise_outbox (e : Status) (s : State) :
    (raise e s).outbox = s.outbox ++ [⟨e, flagsByte (raise e s), [], []⟩] := rfl

/-- `FLAGS` depends on the two flags alone. -/
theorem flagsByte_congr {s t : State} (h1 : s.ksValid = t.ksValid) (h2 : s.fatal = t.fatal) : flagsByte s = flagsByte t := by
  simp [flagsByte, h1, h2]

/-- The upper six bits of `FLAGS` are zero (R28). -/
theorem flagsByte_high (s : State) : (flagsByte s).extractLsb' 2 6 = 0 := by
  cases h1 : s.fatal <;> cases h2 : s.ksValid <;> simp [flagsByte, h1, h2]

/-- Two last responses of one history are the same response. -/
theorem outbox_last_inj {l : List Response} {r r' : Response} (h : l ++ [r] = l ++ [r']) : r = r' := by simpa using h

theorem underLatch_clear {s t : State} (h : s.fatal = false) : underLatch s t = .next t := by simp [underLatch, h]

theorem underLatch_set {s t : State} (h : s.fatal = true) : underLatch s t = .next (raise .fatal s) := by
  simp [underLatch, h]

/-- A command under the latch answers a next state: the command's own, or the refusal. -/
theorem underLatch_cases {s t u : State} (h : underLatch s t = .next u) :
    (s.fatal = true ∧ u = raise .fatal s) ∨ (s.fatal = false ∧ u = t) := by
  cases hf : s.fatal with
  | true => rw [underLatch_set hf] at h; exact .inl ⟨rfl, by cases h; rfl⟩
  | false => rw [underLatch_clear hf] at h; exact .inr ⟨rfl, by cases h; rfl⟩

/-- Appending keeps the capacity, and appends exactly the bytes given. -/
theorem Memory.append_some {fb d fb' : Bytes} (h : Memory.append fb d = some fb') :
    fb.length + d.length ≤ fbCap ∧ fb' = fb ++ d := by
  simp only [Memory.append] at h
  split at h
  · cases h
  · exact ⟨by omega, by cases h; rfl⟩

theorem Memory.append_fits {fb d : Bytes} (h : fb.length + d.length ≤ fbCap) : Memory.append fb d = some (fb ++ d) := by
  simp [Memory.append]; omega

theorem Memory.append_overflow {fb d : Bytes} (h : fbCap < fb.length + d.length) : Memory.append fb d = none := by
  simp [Memory.append]; omega

theorem Memory.wf_iff {fb : Bytes} : Memory.wf fb = true ↔ fb.length ≤ fbCap := by simp [Memory.wf]

theorem Memory.append_wf {fb d fb' : Bytes} (h : Memory.append fb d = some fb') : Memory.wf fb' = true := by
  obtain ⟨h1, rfl⟩ := Memory.append_some h
  simpa [Memory.wf_iff] using h1

theorem Memory.dropFront_wf {fb : Bytes} (n : Nat) (h : Memory.wf fb = true) : Memory.wf (Memory.dropFront fb n) = true := by
  simp only [Memory.wf_iff, Memory.dropFront, List.length_drop] at *
  omega

/-- The reset state's framer buffer keeps to its capacity. -/
theorem Memory.reset_wf : Memory.wf State.reset.fb = true := by decide

/-- Reading one byte after an append. -/
theorem Memory.readByte_append_left {fb d : Bytes} {i : Nat} (h : i < fb.length) :
    Memory.readByte (fb ++ d) i = Memory.readByte fb i := by
  simp [Memory.readByte, List.getElem?_append_left h]

/-- Reading one byte after a removal. -/
theorem Memory.readByte_dropFront (fb : Bytes) (n i : Nat) :
    Memory.readByte (Memory.dropFront fb n) i = Memory.readByte fb (n + i) := by
  simp [Memory.readByte, Memory.dropFront]

end Sys2Proof.Machine
end

