-- ==== Sys2Proof/Laws/Framer.lean ====
section
/-! SUPPORT. What one extraction does (43_framer R153), said once without its scan, and how extractions compose over
appended bytes. -/

namespace Sys2Proof.Machine

/-- The header test of R152 on the bytes from one offset on. -/
def headAt (c : Config) (q : Bytes) : Prop :=
  40 ≤ q.length ∧ slice q 0 2 = c.params.startMarker.1 ∧ slice q 38 40 = c.params.endMarker.1 ∧ 44 ≤ totalLength q

theorem totalLength_lt (q : Bytes) : totalLength q ≤ 65535 := by
  have := (le16 (slice q 2 4)).isLt
  simp only [totalLength]; omega

/-- One turn of the scan (R153). -/
theorem extract_cons (c : Config) (b : Byte) (rest : Bytes) :
    ((b :: rest).length < 40 ∧ extract c (b :: rest) = ⟨b :: rest, none⟩) ∨
    (40 ≤ (b :: rest).length ∧ ¬ headAt c (b :: rest) ∧ extract c (b :: rest) = extract c rest) ∨
    (headAt c (b :: rest) ∧ (b :: rest).length < totalLength (b :: rest) ∧ extract c (b :: rest) = ⟨b :: rest, none⟩) ∨
    (headAt c (b :: rest) ∧ totalLength (b :: rest) ≤ (b :: rest).length ∧
      extract c (b :: rest) =
        ⟨(b :: rest).drop (totalLength (b :: rest)), some ((b :: rest).take (totalLength (b :: rest)))⟩) := by
  generalize hq : b :: rest = q
  have hx : extract c q = if lacks q hdrBytes then ⟨q, none⟩
      else if slice q 0 2 ≠ c.params.startMarker.1 then extract c rest
      else if slice q 38 40 ≠ c.params.endMarker.1 then extract c rest
      else if totalLength q < minFrame then extract c rest
      else if lacks q (totalLength q) then ⟨q, none⟩
      else ⟨Memory.dropFront q (totalLength q), some (slice q 0 (totalLength q))⟩ := by subst hq; rfl
  rw [hx]
  simp only [lacks_iff, hdrBytes, minFrame, headAt, Memory.dropFront, slice_zero]
  by_cases h1 : q.length < 40
  · exact .inl ⟨h1, by simp [h1]⟩
  · by_cases h2 : q.take 2 = c.params.startMarker.1
    · by_cases h3 : slice q 38 40 = c.params.endMarker.1
      · by_cases h4 : totalLength q < 44
        · exact .inr (.inl ⟨by omega, by omega, by simp [h1, h2, h3, h4]⟩)
        · by_cases h5 : q.length < totalLength q
          · exact .inr (.inr (.inl ⟨⟨by omega, h2, h3, by omega⟩, h5, by simp [h1, h2, h3, h4, h5]⟩))
          · exact .inr (.inr (.inr ⟨⟨by omega, h2, h3, by omega⟩, by omega, by simp [h1, h2, h3, h4, h5]⟩))
      · exact .inr (.inl ⟨by omega, by tauto, by simp [h1, h2, h3]⟩)
    · exact .inr (.inl ⟨by omega, by tauto, by simp [h1, h2]⟩)

/-- What an extraction stops at: an offset `i` such that every earlier offset has 40 bytes and no header, and at `i` either
fewer than 40 bytes, or a header whose frame is incomplete, or a header with its whole frame. -/
theorem extract_spec (c : Config) (fb : Bytes) :
    ∃ i ≤ fb.length, (∀ j < i, j + 40 ≤ fb.length ∧ ¬ headAt c (fb.drop j)) ∧
      ((fb.length - i < 40 ∧ extract c fb = ⟨fb.drop i, none⟩) ∨
       (headAt c (fb.drop i) ∧ fb.length - i < totalLength (fb.drop i) ∧ extract c fb = ⟨fb.drop i, none⟩) ∨
       (headAt c (fb.drop i) ∧ totalLength (fb.drop i) ≤ fb.length - i ∧
         extract c fb =
          ⟨(fb.drop i).drop (totalLength (fb.drop i)), some ((fb.drop i).take (totalLength (fb.drop i)))⟩)) := by
  induction fb with
  | nil => exact ⟨0, le_refl _, by simp, .inl ⟨by simp, rfl⟩⟩
  | cons b rest ih =>
    rcases extract_cons c b rest with ⟨h, e⟩ | ⟨hl, hn, e⟩ | ⟨hh, hl, e⟩ | ⟨hh, hl, e⟩
    · exact ⟨0, by simp, by simp, .inl ⟨by simpa using h, by simpa using e⟩⟩
    · obtain ⟨i, hi, hall, hcase⟩ := ih
      refine ⟨i + 1, by simpa using hi, ?_, by simpa [e, Nat.add_sub_add_right] using hcase⟩
      rintro (_ | j) hj
      · exact ⟨by simpa using hl, by simpa using hn⟩
      · obtain ⟨h1, h2⟩ := hall j (by omega)
        exact ⟨by simp; omega, by simpa using h2⟩
    · exact ⟨0, by simp, by simp, .inr (.inl ⟨by simpa using hh, by simpa using hl, by simpa using e⟩)⟩
    · exact ⟨0, by simp, by simp, .inr (.inr ⟨by simpa using hh, by simpa using hl, by simpa using e⟩)⟩

/-- The scan from an offset with a header stops there. -/
theorem extract_of_headAt {c : Config} {q : Bytes} (h : headAt c q) :
    extract c q = if q.length < totalLength q then ⟨q, none⟩
      else ⟨q.drop (totalLength q), some (q.take (totalLength q))⟩ := by
  match q, h with
  | [], h => exact absurd h.1 (by simp)
  | b :: rest, h =>
    rcases extract_cons c b rest with ⟨hl, e⟩ | ⟨_, hn, _⟩ | ⟨_, hl, e⟩ | ⟨_, hl, e⟩
    · exact absurd h.1 (by omega)
    · exact absurd h hn
    · rw [e, if_pos hl]
    · rw [e, if_neg (by omega)]

/-- Offsets with 40 bytes and no header are passed over. -/
theorem extract_skip {c : Config} : ∀ {i : Nat} {fb : Bytes}, (∀ j < i, j + 40 ≤ fb.length ∧ ¬ headAt c (fb.drop j)) →
    extract c fb = extract c (fb.drop i)
  | 0, _, _ => by simp
  | i + 1, [], h => by simp at *
  | i + 1, b :: rest, h => by
    have h0 := h 0 (by omega)
    have hstep : extract c (b :: rest) = extract c rest := by
      rcases extract_cons c b rest with ⟨hl, _⟩ | ⟨_, _, e⟩ | ⟨hh, _⟩ | ⟨hh, _⟩
      · exact absurd h0.1 (by simp at *; omega)
      · exact e
      · exact absurd hh (by simpa using h0.2)
      · exact absurd hh (by simpa using h0.2)
    rw [hstep, List.drop_succ_cons]
    exact extract_skip fun j hj => by
      have := h (j + 1) (by omega)
      exact ⟨by have := this.1; simp at this; omega, by simpa using this.2⟩

/-- A header seen is a header whatever follows it. -/
theorem headAt_append {c : Config} {q d : Bytes} (hq : 40 ≤ q.length) : headAt c (q ++ d) ↔ headAt c q := by
  simp only [headAt, totalLength, List.length_append]
  rw [slice_append_left (by omega), slice_append_left (by omega), slice_append_left (by omega)]
  constructor <;> rintro ⟨h1, h2⟩ <;> exact ⟨by omega, h2⟩

theorem totalLength_append {q d : Bytes} (hq : 40 ≤ q.length) : totalLength (q ++ d) = totalLength q := by
  simp only [totalLength]
  rw [slice_append_left (by omega)]

/-- An extraction never lengthens the buffer, and one that returns a frame shortens it. -/
theorem extract_length (c : Config) (fb : Bytes) :
    (extract c fb).fb.length ≤ fb.length ∧
      ∀ f, (extract c fb).frame = some f → (extract c fb).fb.length + 44 ≤ fb.length ∧ f.length ≤ 65535 := by
  obtain ⟨i, hi, _, ⟨_, e⟩ | ⟨_, _, e⟩ | ⟨hh, hl, e⟩⟩ := extract_spec c fb
  · simp [e]
  · simp [e]
  · have h1 := hh.2.2.2
    have h2 := totalLength_lt (fb.drop i)
    refine ⟨by simp [e], fun f hf => ?_⟩
    have hf' : f = (fb.drop i).take (totalLength (fb.drop i)) := by rw [e] at hf; cases hf; rfl
    subst hf'
    refine ⟨?_, by simp; omega⟩
    have h3 := hh.1
    simp only [List.length_drop] at h3
    simp only [e, List.length_drop]
    omega

/-- Bytes appended while an extraction was waiting are scanned from where it stopped: the scan's result is the one over
the whole stream (R160). -/
theorem extract_append_needMore {c : Config} {fb : Bytes} (d : Bytes) (h : (extract c fb).frame = none) :
    extract c (fb ++ d) = extract c ((extract c fb).fb ++ d) := by
  obtain ⟨i, hi, hall, hcase⟩ := extract_spec c fb
  have hfb : (extract c fb).fb = fb.drop i := by
    rcases hcase with ⟨_, e⟩ | ⟨_, _, e⟩ | ⟨_, _, e⟩
    · rw [e]
    · rw [e]
    · rw [e] at h; cases h
  rw [hfb, extract_skip (i := i) (fb := fb ++ d), List.drop_append_of_le_length hi]
  intro j hj
  obtain ⟨h1, h2⟩ := hall j hj
  rw [List.drop_append_of_le_length (by omega), headAt_append (by simp; omega)]
  exact ⟨by simp; omega, h2⟩

/-- A frame found is the frame found whatever follows it. -/
theorem extract_append_frame {c : Config} {fb f : Bytes} (d : Bytes) (h : (extract c fb).frame = some f) :
    extract c (fb ++ d) = ⟨(extract c fb).fb ++ d, some f⟩ := by
  obtain ⟨i, hi, hall, ⟨_, e⟩ | ⟨_, _, e⟩ | ⟨hh, hl, e⟩⟩ := extract_spec c fb
  · rw [e] at h; cases h
  · rw [e] at h; cases h
  · have hf : f = (fb.drop i).take (totalLength (fb.drop i)) := by rw [e] at h; cases h; rfl
    rw [extract_skip (i := i) (fb := fb ++ d), List.drop_append_of_le_length hi]
    · rw [extract_of_headAt ((headAt_append hh.1).mpr hh), totalLength_append hh.1, if_neg (by simp; omega), e, hf,
        List.drop_append_of_le_length (by simp; omega), List.take_append_of_le_length (by simp; omega)]
    · intro j hj
      obtain ⟨h1, h2⟩ := hall j hj
      rw [List.drop_append_of_le_length (by omega), headAt_append (by simp; omega)]
      exact ⟨by simp; omega, h2⟩

/-- What the buffer holds when no frame came out (R156). -/
theorem extract_needMore_bound {c : Config} {fb : Bytes} (h : (extract c fb).frame = none) :
    (extract c fb).fb.length < 40 ∨ headAt c (extract c fb).fb ∧ (extract c fb).fb.length < totalLength (extract c fb).fb := by
  obtain ⟨i, hi, hall, ⟨hl, e⟩ | ⟨hh, hl, e⟩ | ⟨_, _, e⟩⟩ := extract_spec c fb
  · exact .inl (by simp [e]; omega)
  · exact .inr (by rw [e]; exact ⟨hh, by simpa using hl⟩)
  · rw [e] at h; cases h

/-- Extracting again from what a wait left is the same wait. -/
theorem extract_again {c : Config} {fb : Bytes} (h : (extract c fb).frame = none) :
    extract c (extract c fb).fb = extract c fb := by
  have := extract_append_needMore (d := []) h
  simpa using this.symm

end Sys2Proof.Machine
end

