-- ==== Sys2Proof/Laws/Exec.lean ====
section
/-! SUPPORT. What any command can do, said once: it is refused or raises an error, or it answers without error and writes
what its row of 10_state R32 lets it write. -/

namespace Sys2Proof.Machine

/-- An answer without error: the status, result block and data answered, and the state `u` the response is added to. -/
structure Answers (i : Instr) (s : State) (sts : Status) (res rdata : Bytes) (u : State) : Prop where
  sts_normal : sts.isError = false
  res_length : res.length = resSize i
  rdata_ok : sts ≠ .ok → rdata = []
  rdata_length : i.wellFormed = true → rdata.length ≤ maxData
  inbox : u.inbox = s.inbox
  outbox : u.outbox = s.outbox
  fatal : u.fatal = s.fatal
  lastErr : u.lastErr = s.lastErr
  fb : writesFb i = false → u.fb = s.fb
  fb_wf : Memory.wf s.fb = true → Memory.wf u.fb = true
  key : (u.ks = s.ks ∧ u.ksValid = s.ksValid) ∨
    (∃ k, i = .keyLoad k ∧ s.ksValid = false ∧ k.length ∈ cfg.params.keyLens ∧ u.ks = k ∧ u.ksValid = true) ∨
    (i = .keyClr ∧ u.ks = [] ∧ u.ksValid = false)

/-- A command ends with an error, or with an answer without error. -/
def Ends (i : Instr) (s t : State) : Prop :=
  (∃ e : Status, e.isError = true ∧ t = raise e s) ∨
  (∃ sts res rdata u, t = respond sts res rdata u ∧ Answers i s sts res rdata u)

theorem Ends.error {i : Instr} {s : State} (e : Status) (h : e.isError = true) : Ends i s (raise e s) := .inl ⟨e, h, rfl⟩

/-- An answer that writes no state. -/
theorem Ends.pure {i : Instr} {s : State} {res rdata : Bytes} (h1 : res.length = resSize i)
    (h2 : i.wellFormed = true → rdata.length ≤ maxData) : Ends i s (respond .ok res rdata s) :=
  .inr ⟨.ok, res, rdata, s, rfl, rfl, h1, fun h => absurd rfl h, h2, rfl, rfl, rfl, rfl, fun _ => rfl, id, .inl ⟨rfl, rfl⟩⟩

theorem Instr.wellFormed_length {i : Instr} (h : i.wellFormed = true) : i.data.length ≤ i.maxDlen := by
  simp only [Instr.wellFormed, Bool.and_eq_true, decide_eq_true_eq] at h
  exact h.1

theorem ecbEncCmd_ends (k : CipherSlot) (p : Bytes) (s : State) : Ends (.ecbEnc k p) s (ecbEncCmd cfg k p s) := by
  unfold ecbEncCmd
  split
  · exact .error _ rfl
  · refine .pure rfl fun h => ?_
    have := Instr.wellFormed_length h
    simp only [Instr.data, Instr.maxDlen, maxPt] at this
    rw [ecbEnc_length, pad_length, maxData]; omega

theorem ecbDecCmd_ends (k : CipherSlot) (ct : Bytes) (s : State) : Ends (.ecbDec k ct) s (ecbDecCmd cfg k ct s) := by
  unfold ecbDecCmd
  split
  · exact .error _ rfl
  · split
    · exact .error _ rfl
    · rename_i key _ hl
      split
      · exact .error _ rfl
      · rename_i p hp
        refine .pure rfl fun h => ?_
        have hd := Instr.wellFormed_length h
        simp only [Instr.data, Instr.maxDlen, maxData] at hd
        simp only [blockBytes] at hl
        have hlen := ecbDec_length cfg key ct
        obtain ⟨n, _, _, _, h5⟩ := unpad_some (by omega) hp
        rw [maxData]; omega

theorem hdrEncCmd_ends (v : VersionSel) (h : Hdesc) (s : State) : Ends (.hdrEnc v h) s (hdrEncCmd cfg v h s) := by
  unfold hdrEncCmd
  split
  · exact .error _ rfl
  · rename_i hdr hh
    refine .pure rfl fun _ => ?_
    simp only [mkHeader] at hh
    split at hh
    · cases hh
    · cases hh; simp [maxData]

theorem frmEncCmd_ends (k : SignSlot) (v : VersionSel) (h : Hdesc) (p : Bytes) (s : State) :
    Ends (.frmEnc k v h p) s (frmEncCmd cfg k v h p s) := by
  unfold frmEncCmd
  split
  · exact .error _ rfl
  · rename_i key _
    split
    · exact .error _ rfl
    · rename_i hdr hh
      refine .pure rfl fun _ => ?_
      have hs := (cfg.params.sig (hdr ++ p) key).2
      simp only [mkHeader] at hh
      split at hh
      · cases hh
      · rename_i hl
        cases hh
        simp only [maxPayload] at hl
        simp only [List.length_append, headerBytes_length, hs, maxData]; omega

theorem frmDecCmd_ends (d : Bytes) (s : State) : Ends (.frmDec d) s (frmDecCmd d s) := by
  unfold frmDecCmd
  split
  · rename_i hd
    refine .pure (rdesc_length hd) fun h => ?_
    have := Instr.wellFormed_length h
    simp only [Instr.data, Instr.maxDlen] at this
    rw [slice_length (by omega)]
    simp only [maxData, hdrBytes, sigBytes] at *; omega
  · exact .error _ rfl

theorem sigGenCmd_ends (k : SignSlot) (d : Bytes) (s : State) : Ends (.sigGen k d) s (sigGenCmd cfg k d s) := by
  unfold sigGenCmd
  split
  · exact .error _ rfl
  · exact .pure rfl fun _ => by simp only [(cfg.params.sig d _).2, maxData]; omega

theorem sigChkCmd_ends (k : SignSlot) (d : Bytes) (s : State) : Ends (.sigChk k d) s (sigChkCmd cfg k d s) := by
  unfold sigChkCmd
  split
  · exact .error _ rfl
  · split
    · exact .pure rfl fun _ => by simp
    · exact .error _ rfl

/-- One extraction from `fb`, in a state whose FB is `fb` and which is otherwise `s`. -/
theorem frPopCmd_ends {i : Instr} {s u : State} (hi : resSize i = 4) (hw : writesFb i = true) (h1 : u.inbox = s.inbox)
    (h2 : u.outbox = s.outbox) (h3 : u.fatal = s.fatal) (h4 : u.lastErr = s.lastErr) (h5 : u.ks = s.ks)
    (h6 : u.ksValid = s.ksValid) (hwf : Memory.wf s.fb = true → Memory.wf u.fb = true) : Ends i s (frPopCmd cfg u) := by
  have hl := extract_length cfg u.fb
  have hwf' : Memory.wf s.fb = true → Memory.wf (extract cfg u.fb).fb = true := fun h => by
    have := Memory.wf_iff.mp (hwf h)
    exact Memory.wf_iff.mpr (by omega)
  simp only [frPopCmd]
  split
  · exact .inr ⟨.needMore, _, _, _, rfl, rfl, by simp [hi], fun _ => rfl, fun _ => by simp, h1, h2, h3, h4,
      fun h => by simp [hw] at h, hwf', .inl ⟨h5, h6⟩⟩
  · rename_i f hf
    exact .inr ⟨.ok, _, _, _, rfl, rfl, by simp [hi], fun h => absurd rfl h, fun _ => (hl.2 f hf).2, h1, h2, h3, h4,
      fun h => by simp [hw] at h, hwf', .inl ⟨h5, h6⟩⟩

theorem frPushCmd_ends (d : Bytes) (s : State) : Ends (.frPush d) s (frPushCmd d s) := by
  unfold frPushCmd
  split
  · exact .error _ rfl
  · rename_i fb hfb
    exact .inr ⟨.ok, _, _, _, rfl, rfl, rfl, fun h => absurd rfl h, fun _ => by simp, rfl, rfl, rfl, rfl,
      fun h => by simp [writesFb] at h, fun _ => Memory.append_wf hfb, .inl ⟨rfl, rfl⟩⟩

theorem frFeedCmd_ends (d : Bytes) (s : State) : Ends (.frFeed d) s (frFeedCmd cfg d s) := by
  unfold frFeedCmd
  split
  · exact .error _ rfl
  · rename_i fb hfb
    exact frPopCmd_ends rfl rfl rfl rfl rfl rfl rfl rfl fun _ => Memory.append_wf hfb

theorem keyLoadCmd_ends (k : Bytes) (s : State) : Ends (.keyLoad k) s (keyLoadCmd cfg k s) := by
  unfold keyLoadCmd
  split
  · exact .error _ rfl
  · rename_i hv
    split
    · exact .error _ rfl
    · rename_i hk
      exact .inr ⟨.ok, _, _, _, rfl, rfl, rfl, fun h => absurd rfl h, fun _ => by simp, rfl, rfl, rfl, rfl, fun _ => rfl, id,
        .inr (.inl ⟨k, rfl, by simpa using hv, by simpa using hk, rfl, rfl⟩)⟩

theorem underLatch_ends {i : Instr} {s t u : State} (h : underLatch s t = .next u) (ht : Ends i s t) : Ends i s u := by
  rcases underLatch_cases h with ⟨_, rfl⟩ | ⟨_, rfl⟩
  · exact .error _ rfl
  · exact ht

/-- What any command can do. -/
theorem exec_ends {i : Instr} {s t : State} (h : exec i s = .next t) : Ends i s t := by
  cases i with
  | ecbEnc k p => exact underLatch_ends h (ecbEncCmd_ends k p s)
  | ecbDec k p => exact underLatch_ends h (ecbDecCmd_ends k p s)
  | hdrEnc v hd => exact underLatch_ends h (hdrEncCmd_ends v hd s)
  | frmEnc k v hd p => exact underLatch_ends h (frmEncCmd_ends k v hd p s)
  | frmDec d => exact underLatch_ends h (frmDecCmd_ends d s)
  | sigGen k d => exact underLatch_ends h (sigGenCmd_ends k d s)
  | sigChk k d => exact underLatch_ends h (sigChkCmd_ends k d s)
  | frPush d => exact underLatch_ends h (frPushCmd_ends d s)
  | frPop => exact underLatch_ends h (frPopCmd_ends rfl rfl rfl rfl rfl rfl rfl rfl id)
  | frFeed d => exact underLatch_ends h (frFeedCmd_ends d s)
  | frRst =>
    exact underLatch_ends h (.inr ⟨.ok, _, _, _, rfl, rfl, rfl, fun h => absurd rfl h, fun _ => by simp, rfl, rfl, rfl, rfl,
      fun h => by simp [writesFb] at h, fun _ => rfl, .inl ⟨rfl, rfl⟩⟩)
  | keyLoad k => exact underLatch_ends h (keyLoadCmd_ends k s)
  | keyClr =>
    exact underLatch_ends h (.inr ⟨.ok, _, _, _, rfl, rfl, rfl, fun h => absurd rfl h, fun _ => by simp, rfl, rfl, rfl, rfl,
      fun _ => rfl, id, .inr (.inr ⟨rfl, rfl, rfl⟩)⟩)
  | statRd =>
    cases h
    exact .pure (by simp [resSize, statImage]) fun _ => by simp

/-- Every command answers a next state (R3: the step is total). -/
theorem exec_total (i : Instr) (s : State) : ∃ t, exec i s = .next t := by
  cases i <;> exact ⟨_, rfl⟩

/-- While FATAL = 1 every command but STAT.RD is refused (R185). -/
theorem exec_latched {i : Instr} {s : State} (hf : s.fatal = true) (hi : i ≠ .statRd) : exec i s = .next (raise .fatal s) := by
  cases i <;> first | exact absurd rfl hi | exact underLatch_set hf

/-- The first byte of a packet that decodes (R86). -/
theorem decodeCmd_head {c : Bytes} {i : Instr} (h : decodeCmd c = .ok i) : c.head? = some i.opcode.code := by
  obtain ⟨op, h4, h0, _, _, hb⟩ := decodeCmd_ok h
  have hop : i.opcode = op := by
    cases op <;> simp only [decodeBody, withCipherSlot, withSignSlot, needKsel0, needVsel0, needDlen] at hb <;>
      (repeat' split at hb) <;> first | (cases hb; rfl) | cases hb
  match c, h4 with
  | a :: r, _ => simpa [byteAt, hop] using h0

/-- One packet, with its decoding settled (R183). -/
theorem takePacket_cases (c : Bytes) (s : State) :
    (s.fatal = true ∧ c.head? ≠ some 0x52 ∧ takePacket c s = .next (raise .fatal s)) ∨
    ((s.fatal = false ∨ c.head? = some 0x52) ∧ (∃ e, decodeCmd c = .error e) ∧ takePacket c s = .next (raise .illegal s)) ∨
    (∃ i, decodeCmd c = .ok i ∧ takePacket c s = exec i s) := by
  have hcode : Opcode.statRd.code = (0x52 : Byte) := rfl
  unfold takePacket latchRefuses
  by_cases hr : s.fatal = true ∧ c.head? ≠ some 0x52
  · exact .inl ⟨hr.1, hr.2, if_pos (by rw [hcode, hr.1, Bool.true_and]; exact bne_iff_ne.mpr hr.2)⟩
  · have hno : (s.fatal && c.head? != some Opcode.statRd.code) = false := by
      cases hf : s.fatal <;> simp_all
    rw [hno]
    cases hd : decodeCmd c with
    | error e =>
      refine .inr (.inl ⟨?_, ⟨e, rfl⟩, rfl⟩)
      cases hf : s.fatal with
      | false => exact .inl rfl
      | true => exact .inr (by by_contra hne; exact hr ⟨hf, hne⟩)
    | ok i => exact .inr (.inr ⟨i, rfl, rfl⟩)

/-- A step on a packet that decodes is the command, FATAL or not. -/
theorem takePacket_ok {c : Bytes} {i : Instr} (h : decodeCmd c = .ok i) (s : State) : takePacket c s = exec i s := by
  rcases takePacket_cases c s with ⟨hf, hne, e⟩ | ⟨_, ⟨_, he⟩, _⟩ | ⟨j, hj, e⟩
  · rw [e, exec_latched hf]
    rintro rfl
    exact hne (decodeCmd_head h)
  · rw [h] at he; cases he
  · rw [h] at hj; cases hj; exact e

/-- What any step can do. -/
theorem step_cases {s t : State} (h : step s = .next t) :
    (s.inbox = [] ∧ t = s) ∨
    (∃ rest, s.inbox = .reset :: rest ∧ t = applyReset (s.setInbox rest)) ∨
    (∃ c rest, s.inbox = .packet c :: rest ∧ takePacket c (s.setInbox rest) = .next t) := by
  unfold step portStep at h
  split at h
  · rename_i hq; cases h; exact .inl ⟨hq, rfl⟩
  · rename_i e rest hq
    cases e with
    | packet c => exact .inr (.inr ⟨c, rest, hq, h⟩)
    | reset => cases h; exact .inr (.inl ⟨rest, hq, rfl⟩)

/-- A step on a packet. -/
theorem step_packet {s : State} {c : Bytes} {rest : List PortEvent} (h : s.inbox = .packet c :: rest) :
    step s = takePacket c (s.setInbox rest) := by
  unfold step portStep
  rw [h]
  rfl

/-- What a step on a packet can do. -/
theorem packet_ends {s t : State} {c : Bytes} {rest : List PortEvent} (h : s.inbox = .packet c :: rest)
    (ht : step s = .next t) :
    (∃ e : Status, e.isError = true ∧ t = raise e (s.setInbox rest)) ∨
    (∃ i sts res rdata u, decodeCmd c = .ok i ∧ t = respond sts res rdata u ∧ Answers i (s.setInbox rest) sts res rdata u) := by
  rw [step_packet h] at ht
  rcases takePacket_cases c (s.setInbox rest) with ⟨_, _, e⟩ | ⟨_, _, e⟩ | ⟨i, hi, e⟩ <;> rw [e] at ht
  · cases ht; exact .inl ⟨_, rfl, rfl⟩
  · cases ht; exact .inl ⟨_, rfl, rfl⟩
  · rcases exec_ends ht with ⟨e, h1, rfl⟩ | ⟨_, _, _, u, rfl, ha⟩
    · exact .inl ⟨e, h1, rfl⟩
    · exact .inr ⟨i, _, _, _, u, hi, rfl, ha⟩

/-- A packet that does not decode, unless the latch refuses it first. -/
theorem takePacket_error {c : Bytes} {e : Illegal} {s : State} (h : decodeCmd c = .error e)
    (hf : s.fatal = false ∨ c.head? = some 0x52) : takePacket c s = .next (raise .illegal s) := by
  rcases takePacket_cases c s with ⟨a, b, _⟩ | ⟨_, _, e⟩ | ⟨j, hj, _⟩
  · rcases hf with hf | hf
    · simp [hf] at a
    · exact absurd hf b
  · exact e
  · rw [h] at hj; cases hj

theorem Status.isFatal_iff (e : Status) : e.isFatal = true ↔ e = .cryptoKeylen ∨ e = .cryptoBlklen := by cases e <;> decide

theorem Status.normal_not_fatal {e : Status} (h : e.isError = false) : e ≠ .cryptoKeylen ∧ e ≠ .cryptoBlklen := by
  revert h; cases e <;> decide

/-- A normal status is `OK` or `NEED_MORE` (R180). -/
theorem Status.normal_cases {e : Status} (h : e.isError = false) : e = .ok ∨ e = .needMore := by
  revert h; cases e <;> decide

/-- The response of a raised error is the last one. -/
theorem raise_response {e : Status} {s : State} {r : Response} (h : (raise e s).outbox = s.outbox ++ [r]) :
    r = ⟨e, flagsByte (raise e s), [], []⟩ := (outbox_last_inj (l := s.outbox) h).symm

/-- The response of an answer is the last one. -/
theorem respond_response {sts : Status} {a b : Bytes} {s u : State} {r : Response} (ho : u.outbox = s.outbox)
    (h : (respond sts a b u).outbox = s.outbox ++ [r]) : r = ⟨sts, flagsByte u, a, b⟩ := by
  rw [respond_outbox, ho] at h
  exact (outbox_last_inj (l := s.outbox) h).symm

/-- An answer that writes neither FB nor the key is added to the state the command began in. -/
theorem Answers.state_eq {i : Instr} {s u : State} {sts : Status} {a b : Bytes} (h : Answers i s sts a b u)
    (hf : writesFb i = false) (hk : writesKey i = false) : u = s := by
  have h1 := h.fb hf
  have h2 := h.inbox
  have h3 := h.outbox
  have h4 := h.fatal
  have h5 := h.lastErr
  rcases h.key with ⟨h6, h7⟩ | ⟨k, rfl, _⟩ | ⟨rfl, _⟩
  · cases u; cases s; simp_all
  · cases hk
  · cases hk

/-- The statements' usable key of a cipher command's slot is the key the command uses (R23, R100). -/
theorem cipherKey_iff {k : CipherSlot} {s : State} {key : Bytes} : cipherKey cfg k s = some key ↔ cipherKeyIs k s key := by
  constructor <;> intro h <;> cases k <;> simp_all [cipherKeyIs, cipherKey, slotKey, CipherSlot.slot]

/-- The statements' usable key of a signing command's slot is the key the command uses (R23, R140). -/
theorem signKey_iff {k : SignSlot} {s : State} {key : Bytes} : signKey cfg k s = some key ↔ signKeyIs k s key := by
  constructor <;> intro h <;> cases k <;> simp_all [signKeyIs, signKey, slotKey, SignSlot.slot]

/-- An error is no answer. -/
theorem raise_ne_respond {e sts : Status} {a b : Bytes} {s : State} (h : e ≠ sts) : raise e s ≠ respond sts a b s := by
  intro heq
  have := congrArg (fun t : State => t.outbox.getLast?.map (fun r : Response => r.sts)) heq
  exact h (by simpa using this)

/-- Equal answers in one state have equal results. -/
theorem respond_inj {sts : Status} {a b a' b' : Bytes} {s : State} (h : respond sts a b s = respond sts a' b' s) :
    a = a' ∧ b = b' := by
  have := congrArg (fun t : State => t.outbox.getLast?) h
  simpa using this

theorem declaredLen_eq (fb : Bytes) (i : Nat) : declaredLen fb i = totalLength (fb.drop i) := by
  rw [declaredLen, totalLength, slice_drop]

/-- The header test at an offset is the header test on the bytes from there on (R152). -/
theorem hdrOk_iff {fb : Bytes} {i : Nat} (h : i ≤ fb.length) : hdrOk fb i ↔ headAt cfg (fb.drop i) := by
  rw [hdrOk, headAt, declaredLen_eq, slice_drop, slice_drop]
  constructor <;> rintro ⟨h1, h2⟩ <;> exact ⟨by simp at *; omega, h2⟩

end Sys2Proof.Machine
end

