-- ==== Sys2Proof/Laws/PerInstr.lean ====
section
/-! SUPPORT. Facts about every command as syntax, one lemma per constructor. -/

namespace Sys2Proof

theorem and_low_bytes (b3 b2 b1 b0 m1 m0 : Byte) :
    (b3 ++ b2 ++ b1 ++ b0 : BitVec 32) &&& (0#8 ++ 0#8 ++ m1 ++ m0 : BitVec 32) = (0#8 ++ 0#8 ++ (b1 &&& m1) ++ (b0 &&& m0) : BitVec 32) := by
  rw [BitVec.and_append, BitVec.and_append, BitVec.and_append]
  simp

end Sys2Proof

namespace Sys2Proof.Laws

/-- The packet of a command selects its own row of the opcode table (R86). -/
def SelectsRow.Statement (i : Instr) : Prop := i.opcode.selects (packetWord (encode i)) = true

/-- A row whose mask looks at the first two packet bytes only. -/
theorem selects_of_low {op : Opcode} {k : BitVec 2} {v : BitVec 1} {d : Bytes} (m1 m0 : Byte)
    (hm : op.tableMask = (0#8 ++ 0#8 ++ m1 ++ m0 : BitVec 32))
    (hr : (0#8 ++ 0#8 ++ (modByte k v &&& m1) ++ (op.code &&& m0) : BitVec 32) = op.tableMatch) :
    op.selects (le32 (op.code :: modByte k v :: d)) = true := by
  have e : le32 (op.code :: modByte k v :: d) = (byteAt d 1 ++ byteAt d 0 ++ modByte k v ++ op.code : BitVec 32) := rfl
  rw [Opcode.selects, hm, e, and_low_bytes, hr, beq_self_eq_true]

theorem SelectsRow.ecbEnc (slot : CipherSlot) (data : Bytes) : SelectsRow.Statement (.ecbEnc slot data) := by
  cases slot
  · exact selects_of_low (op := .ecbEnc) (k := 0) (v := 0) 0xFC 0xFF (by decide) (by decide)
  · exact selects_of_low (op := .ecbEnc) (k := 1) (v := 0) 0xFC 0xFF (by decide) (by decide)
  · exact selects_of_low (op := .ecbEnc) (k := 2) (v := 0) 0xFC 0xFF (by decide) (by decide)

theorem SelectsRow.ecbDec (slot : CipherSlot) (data : Bytes) : SelectsRow.Statement (.ecbDec slot data) := by
  cases slot
  · exact selects_of_low (op := .ecbDec) (k := 0) (v := 0) 0xFC 0xFF (by decide) (by decide)
  · exact selects_of_low (op := .ecbDec) (k := 1) (v := 0) 0xFC 0xFF (by decide) (by decide)
  · exact selects_of_low (op := .ecbDec) (k := 2) (v := 0) 0xFC 0xFF (by decide) (by decide)

theorem SelectsRow.hdrEnc (ver : VersionSel) (h : Hdesc) : SelectsRow.Statement (.hdrEnc ver h) := by
  rw [SelectsRow.Statement, packetWord_encode]
  cases ver
  · exact (by decide : Opcode.selects .hdrEnc (le32 (Opcode.code .hdrEnc :: modByte 0 0 :: natBytes16 0)) = true)
  · exact (by decide : Opcode.selects .hdrEnc (le32 (Opcode.code .hdrEnc :: modByte 0 1 :: natBytes16 0)) = true)

theorem SelectsRow.frmEnc (slot : SignSlot) (ver : VersionSel) (h : Hdesc) (data : Bytes) : SelectsRow.Statement (.frmEnc slot ver h data) := by
  cases slot <;> cases ver
  · exact selects_of_low (op := .frmEnc) (k := 2) (v := 0) 0xFA 0xFF (by decide) (by decide)
  · exact selects_of_low (op := .frmEnc) (k := 2) (v := 1) 0xFA 0xFF (by decide) (by decide)
  · exact selects_of_low (op := .frmEnc) (k := 3) (v := 0) 0xFA 0xFF (by decide) (by decide)
  · exact selects_of_low (op := .frmEnc) (k := 3) (v := 1) 0xFA 0xFF (by decide) (by decide)

theorem SelectsRow.frmDec (data : Bytes) : SelectsRow.Statement (.frmDec data) :=
  selects_of_low (op := .frmDec) (k := 0) (v := 0) 0xFF 0xFF (by decide) (by decide)

theorem SelectsRow.sigGen (slot : SignSlot) (data : Bytes) : SelectsRow.Statement (.sigGen slot data) := by
  cases slot
  · exact selects_of_low (op := .sigGen) (k := 2) (v := 0) 0xFE 0xFF (by decide) (by decide)
  · exact selects_of_low (op := .sigGen) (k := 3) (v := 0) 0xFE 0xFF (by decide) (by decide)

theorem SelectsRow.sigChk (slot : SignSlot) (data : Bytes) : SelectsRow.Statement (.sigChk slot data) := by
  cases slot
  · exact selects_of_low (op := .sigChk) (k := 2) (v := 0) 0xFE 0xFF (by decide) (by decide)
  · exact selects_of_low (op := .sigChk) (k := 3) (v := 0) 0xFE 0xFF (by decide) (by decide)

theorem SelectsRow.frPush (data : Bytes) : SelectsRow.Statement (.frPush data) :=
  selects_of_low (op := .frPush) (k := 0) (v := 0) 0xFF 0xFF (by decide) (by decide)

theorem SelectsRow.frPop : SelectsRow.Statement .frPop :=
  show Opcode.selects .frPop (le32 [Opcode.code .frPop, modByte 0 0, 0, 0]) = true by decide

theorem SelectsRow.frFeed (data : Bytes) : SelectsRow.Statement (.frFeed data) :=
  selects_of_low (op := .frFeed) (k := 0) (v := 0) 0xFF 0xFF (by decide) (by decide)

theorem SelectsRow.frRst : SelectsRow.Statement .frRst :=
  show Opcode.selects .frRst (le32 [Opcode.code .frRst, modByte 0 0, 0, 0]) = true by decide

theorem SelectsRow.keyLoad (data : Bytes) : SelectsRow.Statement (.keyLoad data) :=
  selects_of_low (op := .keyLoad) (k := 0) (v := 0) 0xFF 0xFF (by decide) (by decide)

theorem SelectsRow.keyClr : SelectsRow.Statement .keyClr :=
  show Opcode.selects .keyClr (le32 [Opcode.code .keyClr, modByte 0 0, 0, 0]) = true by decide

theorem SelectsRow.statRd : SelectsRow.Statement .statRd :=
  show Opcode.selects .statRd (le32 [Opcode.code .statRd, modByte 0 0, 0, 0]) = true by decide

end Sys2Proof.Laws
end

