-- ==== Sys2Proof/Tests/Slice0.lean ====
section
/-! SUPPORT. The model's own tests: which terms are ill-formed, packets written out byte by byte, the vectors of
95_test_vectors under the synthetic configuration T0, and for every obligation with hypotheses a witness that meets them. -/

namespace Sys2Proof.Tests

open Sys2Proof Sys2Proof.Machine

/-- The bytes of the last response. -/
def answer (s : State) : Option Bytes := s.outbox.getLast?.map Response.bytes

/-- The reset state with a framer buffer. -/
def withFb (b : Bytes) : State := State.reset.setFb b

/-- The reset state with a session key. -/
def withKey (k : Bytes) : State := State.reset.setKey k true

/-- The reset state with the latch set, as a fatal error leaves it. -/
def latched : State := State.reset.setErr 0x21 true

/-- The reset state with one packet presented. -/
def offered (c : Bytes) : State := present (.packet c) State.reset

/-- A descriptor of zeros. -/
def noHdr : Hdesc := ⟨0, 0, 0, 0, 0, 0, 0, 0, 0⟩

/-- `F0` of 95_test_vectors section 1. -/
def f0 : Bytes := [0x53, 0x54, 0x2C, 0x00, 0x01, 0x00, 0x01, 0x00, 0x00, 0x00,
  0x00, 0x00, 0x00, 0x00, 0x00, 0x00, 0x00, 0x00, 0x00, 0x00, 0x00, 0x00, 0x00, 0x00, 0x00, 0x00, 0x00, 0x00, 0x00, 0x00,
  0x00, 0x00, 0x00, 0x00, 0x00, 0x00, 0x00, 0x00, 0x45, 0x4E, 0x68, 0x01, 0x00, 0x00]

/-- `F1` of 95_test_vectors section 1. -/
def f1 : Bytes := [0x53, 0x54, 0x2E, 0x00, 0x02, 0x00, 0x02, 0x00, 0x00, 0x00,
  0x00, 0x00, 0x01, 0x00, 0x00, 0x00, 0x00, 0x00, 0x00, 0x00, 0x00, 0x00, 0x00, 0x00, 0x00, 0x00, 0x00, 0x00, 0x00, 0x00,
  0x00, 0x00, 0x00, 0x00, 0x00, 0x00, 0x00, 0x00, 0x45, 0x4E, 0xAA, 0xBB, 0xD2, 0x02, 0x00, 0x00]

/-- The session key of the vectors. -/
def keyC : Bytes := [0xC0, 0xC1, 0xC2, 0xC3, 0xC4, 0xC5, 0xC6, 0xC7, 0xC8, 0xC9,
  0xCA, 0xCB, 0xCC, 0xCD, 0xCE, 0xCF]

-- Well-formedness (R83, R87): one ill-formed term for each check, and the largest well-formed one beside it.

theorem test_ecbEnc_too_long :
    (Instr.ecbEnc .master (List.replicate 65520 0x00)).wellFormed = false ∧
    (Instr.ecbEnc .master (List.replicate 65519 0x00)).wellFormed = true := by
  constructor <;> simp only [Instr.wellFormed, Instr.data, Instr.maxDlen, Instr.plenAgrees, List.length_replicate] <;> decide

theorem test_frPush_too_long :
    (Instr.frPush (List.replicate 65536 0x00)).wellFormed = false ∧
    (Instr.frPush (List.replicate 65535 0x00)).wellFormed = true := by
  constructor <;> simp only [Instr.wellFormed, Instr.data, Instr.maxDlen, Instr.plenAgrees, List.length_replicate] <;> decide

theorem test_frmEnc_plen :
    (Instr.frmEnc .none .login noHdr [0xAA]).wellFormed = false ∧
    (Instr.frmEnc .none .login noHdr []).wellFormed = true := by decide

-- Decoding: for every command one packet written out from 30_encoding R80 to R86.

/-- V-EN-2. -/
theorem test_decode_ecbEnc : decodeCmd [0x10, 0x01, 0x01, 0x00, 0x01] = .ok (.ecbEnc .visit [0x01]) := by
    decide

/-- P4 step 10 shortened to four bytes, slot SESSION. -/
theorem test_decode_ecbDec : decodeCmd [0x11, 0x02, 0x04, 0x00,
    0xC0, 0xC6, 0xBC, 0xBD] = .ok (.ecbDec .session [0xC0, 0xC6, 0xBC, 0xBD]) := by decide

/-- V-EN-3. -/
theorem test_decode_hdrEnc : decodeCmd [0x20, 0x04, 0x00, 0x00, 0x00, 0x00, 0x02, 0x01, 0xFE, 0xFF, 0xFF,
    0xFF, 0x07, 0x00, 0x01, 0x00, 0x04, 0x03, 0x44, 0x33, 0x22, 0x11, 0x00, 0x00, 0x00, 0x65] = .ok (.hdrEnc .session ⟨0,
    0x0102, 0xFFFFFFFE, 7, 1, 0, 0x0304, 0x11223344, 0x65000000⟩) := by decide

/-- V-EN-4. -/
theorem test_decode_frmEnc : decodeCmd [0x21, 0x07, 0x02, 0x00, 0x02, 0x00, 0x02, 0x00, 0x00, 0x00, 0x00,
    0x00, 0x01, 0x00, 0x00, 0x00, 0x00, 0x00, 0x00, 0x00, 0x00, 0x00, 0x00, 0x00, 0x00, 0x00, 0xAA, 0xBB] = .ok (.frmEnc .none
    .session ⟨2, 2, 0, 1, 0, 0, 0, 0, 0⟩ [0xAA, 0xBB]) := by decide

/-- R83. -/
theorem test_decode_frmDec : decodeCmd [0x22, 0x00, 0x02, 0x00, 0x53, 0x54] = .ok (.frmDec [0x53, 0x54]) := by
    decide

/-- V-EN-5. -/
theorem test_decode_sigGen : decodeCmd [0x30, 0x03, 0x03, 0x00, 0x01, 0x02, 0x03] = .ok (.sigGen .none [0x01,
    0x02, 0x03]) := by decide

/-- R83. -/
theorem test_decode_sigChk : decodeCmd [0x31, 0x02, 0x01, 0x00, 0x7F] = .ok (.sigChk .session [0x7F]) := by
    decide

/-- V-EN-6. -/
theorem test_decode_frPush : decodeCmd [0x40, 0x00, 0x02, 0x00, 0x53, 0x54] = .ok (.frPush [0x53, 0x54]) :=
    by decide

/-- V-EN-7. -/
theorem test_decode_frPop : decodeCmd [0x41, 0x00, 0x00, 0x00] = .ok (.frPop) := by decide

/-- R83. -/
theorem test_decode_frFeed : decodeCmd [0x42, 0x00, 0x01, 0x00, 0xFF] = .ok (.frFeed [0xFF]) := by decide

/-- P1 step 1. -/
theorem test_decode_frRst : decodeCmd [0x43, 0x00, 0x00, 0x00] = .ok (.frRst) := by decide

/-- P1 step 9, shortened to three bytes. -/
theorem test_decode_keyLoad : decodeCmd [0x50, 0x00, 0x03, 0x00, 0xC0, 0xC1,
    0xC2] = .ok (.keyLoad [0xC0, 0xC1, 0xC2]) := by decide

/-- R83. -/
theorem test_decode_keyClr : decodeCmd [0x51, 0x00, 0x00, 0x00] = .ok (.keyClr) := by decide

/-- V-EN-8. -/
theorem test_decode_statRd : decodeCmd [0x52, 0x00, 0x00, 0x00] = .ok (.statRd) := by decide

-- Illegal packets, V-IL-1 to V-IL-17.

theorem test_illegal_short :
    decodeCmd [] = .error .shortPacket ∧ decodeCmd [0x10, 0x00, 0x00] = .error .shortPacket := by decide

theorem test_illegal_opcode :
    decodeCmd [0x12, 0x00, 0x00, 0x00] = .error .unknownOpcode ∧
    decodeCmd [0x00, 0x00, 0x00, 0x00] = .error .unknownOpcode := by decide

theorem test_illegal_length :
    decodeCmd [0x10, 0x00, 0x02, 0x00, 0xAA] = .error .wrongLength ∧
    decodeCmd [0x10, 0x00, 0x00, 0x00, 0xAA] = .error .wrongLength ∧
    decodeCmd [0x20, 0x00, 0x00, 0x00] = .error .wrongLength := by decide

theorem test_illegal_mod :
    decodeCmd [0x10, 0x08, 0x00, 0x00] = .error .reservedMod ∧ decodeCmd [0x10, 0x03, 0x00, 0x00] = .error .keySlot ∧
    decodeCmd [0x10, 0x04, 0x00, 0x00] = .error .versionSelector ∧
    decodeCmd ([0x21, 0x00, 0x00, 0x00] ++ rep 0x00 22) = .error .keySlot ∧
    decodeCmd [0x41, 0x01, 0x00, 0x00] = .error .keySlot ∧ decodeCmd [0x30, 0x00, 0x00, 0x00] = .error .keySlot := by decide

theorem test_illegal_dlen :
    decodeCmd ([0x21, 0x03, 0x01, 0x00] ++ rep 0x00 22 ++ [0xAA]) = .error .payloadLength ∧
    decodeCmd ([0x20, 0x00, 0x01, 0x00] ++ rep 0x00 22 ++ [0xAA]) = .error .dataLength ∧
    decodeCmd [0x52, 0x00, 0x01, 0x00, 0xAA] = .error .dataLength := by decide

-- The host's two questions, on one row with arguments and one without.

theorem test_decodeTableWord :
    decodeTableWord 32 0x00000052 = some .statRd ∧ decodeTableWord 32 0x00010010 = some (.ecbEnc .master [0x00]) ∧
    decodeTableWord 32 0x00000221 = some (.frmEnc .session .login noHdr []) ∧
    decodeTableWord 32 0x00000820 = none := by decide

theorem test_step_runs_first :
    answer (match step (State.reset.withFetchWord 32 0x00000052) with
      | .next t => t
      | .fault _ => State.reset
      | .refused _ => State.reset) = some [0x00, 0x00, 0x00, 0x00, 0x00, 0x00, 0x00, 0x00, 0x00, 0x00, 0x00, 0x00] := by decide

-- The vectors of 95_test_vectors under T0.

/-- V-EN-1. -/
theorem test_ecbEnc_one : answer (ecbEncCmd t0Config .master [0x01] State.reset) = some [0x00, 0x00, 0x10,
    0x00, 0xA1, 0xAE, 0xAD, 0xAC, 0xAB, 0xAA, 0xA9, 0xA8, 0xA7, 0xA6, 0xA5, 0xA4, 0xA3, 0xA2, 0xA1, 0xA0] := by decide

/-- V-CI-4. -/
theorem test_ecbEnc_whole_block : answer (ecbEncCmd t0Config .master [0x01, 0x02, 0x03, 0x04, 0x05, 0x06,
    0x07, 0x08, 0x09, 0x0A, 0x0B, 0x0C, 0x0D, 0x0E, 0x0F, 0x10] State.reset) = some [0x00, 0x00, 0x20, 0x00, 0xA1, 0xA3, 0xA1,
    0xA7, 0xA1, 0xA3, 0xA1, 0xAF, 0xA1, 0xA3, 0xA1, 0xA7, 0xA1, 0xA3, 0xA1, 0xBF, 0xB0, 0xB1, 0xB2, 0xB3, 0xB4, 0xB5, 0xB6,
    0xB7, 0xB8, 0xB9, 0xBA, 0xBB, 0xBC, 0xBD, 0xBE, 0xBF] := by decide

/-- V-CI-9, the padding 02 02. -/
theorem test_ecbDec_two : answer (ecbDecCmd t0Config .master [0xA0, 0xA1, 0xA2, 0xA3,
    0xA4, 0xA5, 0xA6, 0xA7, 0xA8, 0xA9, 0xAA, 0xAB, 0xAC, 0xAD, 0xAC, 0xAD] State.reset) = some [0x00, 0x00, 0x0E, 0x00, 0x00,
    0x00, 0x00, 0x00, 0x00, 0x00, 0x00, 0x00, 0x00, 0x00, 0x00, 0x00, 0x00, 0x00] := by decide

/-- V-CI-9, the padding 02 03 03. -/
theorem test_ecbDec_bad_pad : answer (ecbDecCmd t0Config .master [0xA0, 0xA1, 0xA2,
    0xA3, 0xA4, 0xA5, 0xA6, 0xA7, 0xA8, 0xA9, 0xAA, 0xAB, 0xAC, 0xAF, 0xAD, 0xAC] State.reset) = some [0x22, 0x00, 0x00, 0x00]
    := by decide

/-- V-EN-3. -/
theorem test_hdrEnc_fields : answer (hdrEncCmd t0Config .session ⟨0, 0x0102, 0xFFFFFFFE, 7, 1, 0, 0x0304,
    0x11223344, 0x65000000⟩ State.reset) = some [0x00, 0x00, 0x28, 0x00, 0x53, 0x54, 0x2C, 0x00, 0x02, 0x00, 0x02, 0x01, 0xFE,
    0xFF, 0xFF, 0xFF, 0x07, 0x00, 0x01, 0x00, 0x04, 0x03, 0x44, 0x33, 0x22, 0x11, 0x00, 0x00, 0x00, 0x00, 0x00, 0x65, 0x00,
    0x00, 0x00, 0x00, 0x00, 0x00, 0x00, 0x00, 0x00, 0x00, 0x45, 0x4E] := by decide

/-- V-CO-2 and V-CO-3: `PLEN` 65491 gives the length FF FF, 65492 is too much. -/
theorem test_hdrEnc_edge :
    (answer (hdrEncCmd t0Config .session { noHdr with plen := 65491 } State.reset)).map (fun b => slice b 4 8)
        = some [0x53, 0x54, 0xFF, 0xFF] ∧
    answer (hdrEncCmd t0Config .session { noHdr with plen := 65492 } State.reset) = some [0x31, 0x00, 0x00, 0x00] := by decide

/-- V-EN-4. -/
theorem test_frmEnc_none : answer (frmEncCmd t0Config .none .session ⟨2, 2, 0, 1, 0, 0, 0, 0, 0⟩ [0xAA, 0xBB]
    State.reset) = some [0x00, 0x00, 0x2E, 0x00, 0x53, 0x54, 0x2E, 0x00, 0x02, 0x00, 0x02, 0x00, 0x00, 0x00, 0x00, 0x00, 0x01,
    0x00, 0x00, 0x00, 0x00, 0x00, 0x00, 0x00, 0x00, 0x00, 0x00, 0x00, 0x00, 0x00, 0x00, 0x00, 0x00, 0x00, 0x00, 0x00, 0x00,
    0x00, 0x00, 0x00, 0x00, 0x00, 0x45, 0x4E, 0xAA, 0xBB, 0xD2, 0x02, 0x00, 0x00] := by decide

/-- V-SG-9. -/
theorem test_frmEnc_session : answer (frmEncCmd t0Config .session .session { noHdr with cmd := 1 } []
    (withKey keyC)) = some [0x00, 0x01, 0x2C, 0x00, 0x53, 0x54, 0x2C, 0x00, 0x02, 0x00, 0x01, 0x00, 0x00, 0x00, 0x00, 0x00,
    0x00, 0x00, 0x00, 0x00, 0x00, 0x00, 0x00, 0x00, 0x00, 0x00, 0x00, 0x00, 0x00, 0x00, 0x00, 0x00, 0x00, 0x00, 0x00, 0x00,
    0x00, 0x00, 0x00, 0x00, 0x00, 0x00, 0x45, 0x4E, 0xE1, 0x0D, 0x00, 0x00] := by decide

/-- V-CO-6. -/
theorem test_frmDec_fields : answer (frmDecCmd [0x53, 0x54, 0x2D, 0x00, 0x02, 0x00, 0xFF, 0xFF, 0x00, 0x00,
    0x00, 0x80, 0xFF, 0xFF, 0xFF, 0xFF, 0xFF, 0xFF, 0xFF, 0xFF, 0xFF, 0xFF, 0x00, 0x00, 0xFF, 0xFF, 0xFF, 0xFF, 0x00, 0x00,
    0x00, 0x00, 0x00, 0x00, 0x00, 0x00, 0x00, 0x00, 0x45, 0x4E, 0x00, 0xD9, 0x11, 0x00, 0x00] State.reset) = some [0x00, 0x00,
    0x01, 0x00, 0x2D, 0x00, 0x02, 0x00, 0xFF, 0xFF, 0x00, 0x00, 0x00, 0x80, 0xFF, 0xFF, 0xFF, 0xFF, 0xFF, 0xFF, 0xFF, 0xFF,
    0xFF, 0xFF, 0xFF, 0xFF, 0xFF, 0xFF, 0xD9, 0x11, 0x00, 0x00, 0x00] := by decide

/-- V-CO-8, V-CO-9. -/
theorem test_frmDec_lengths : (answer (frmDecCmd (f0.take 43) State.reset), answer (frmDecCmd (f0 ++
    [0x00]) State.reset)) = (some [0x30, 0x00, 0x00, 0x00], some [0x30, 0x00, 0x00, 0x00]) := by decide

/-- V-EN-5. -/
theorem test_sigGen_none : answer (sigGenCmd t0Config .none [0x01, 0x02, 0x03] State.reset) = some [0x00,
    0x00, 0x04, 0x00, 0x06, 0x00, 0x00, 0x00] := by decide

/-- V-SG-4. -/
theorem test_sigGen_session : answer (sigGenCmd t0Config .session [0x01, 0x02, 0x03] (withKey keyC)) = some
    [0x00, 0x01, 0x04, 0x00, 0x7E, 0x0C, 0x00, 0x00] := by decide

/-- V-SG-5. -/
theorem test_sigChk_match : answer (sigChkCmd t0Config .none f0 (withKey keyC)) = some [0x00, 0x01, 0x00,
    0x00, 0x01] := by decide

/-- V-SG-6. -/
theorem test_sigChk_mismatch : answer (sigChkCmd t0Config .session f0 (withKey keyC)) = some [0x00, 0x01,
    0x00, 0x00, 0x00] := by decide

/-- V-EN-6. -/
theorem test_frPush_two : answer (frPushCmd [0x53, 0x54] State.reset) = some [0x00, 0x00, 0x00, 0x00, 0x02,
    0x00, 0x00, 0x00] := by decide

/-- V-EN-7. -/
theorem test_frPop_wait : answer (frPopCmd t0Config (withFb [0x53, 0x54])) = some [0x01, 0x00, 0x00, 0x00,
    0x02, 0x00, 0x00, 0x00] := by decide

/-- The worked example of R154. -/
theorem test_frPop_garbage_and_rest : answer (frPopCmd t0Config (withFb ([0xFF] ++ f0 ++
    [0x53]))) = some [0x00, 0x00, 0x2C, 0x00, 0x01, 0x00, 0x00, 0x00, 0x53, 0x54, 0x2C, 0x00, 0x01, 0x00, 0x01, 0x00, 0x00,
    0x00, 0x00, 0x00, 0x00, 0x00, 0x00, 0x00, 0x00, 0x00, 0x00, 0x00, 0x00, 0x00, 0x00, 0x00, 0x00, 0x00, 0x00, 0x00, 0x00,
    0x00, 0x00, 0x00, 0x00, 0x00, 0x00, 0x00, 0x00, 0x00, 0x45, 0x4E, 0x68, 0x01, 0x00, 0x00] := by decide

/-- V-FR-7. -/
theorem test_frFeed_short_length : (frFeedCmd t0Config (f0.take 2 ++ [0x2B, 0x00] ++ f0.drop 4)
    State.reset).fb = (f0.take 2 ++ [0x2B, 0x00] ++ f0.drop 4).drop 5 := by decide

/-- V-FR-9: the buffer of 84 bytes is kept. -/
theorem test_frFeed_false_header : (frFeedCmd t0Config ([0x53, 0x54, 0x5A,
    0x00] ++ rep 0x00 34 ++ [0x45, 0x4E] ++ f0) State.reset).fb.length = 84 := by decide

/-- V-FR-12. -/
theorem test_frRst : (answer (frRstCmd (withFb (f0.take 30))), (frRstCmd (withFb (f0.take 30))).fb) = (some
    [0x00, 0x00, 0x00, 0x00], []) := by decide

/-- V-SY-2. -/
theorem test_keyLoad_first : answer (statRdCmd (keyLoadCmd t0Config keyC State.reset)) = some [0x00, 0x01,
    0x00, 0x00, 0x00, 0x00, 0x00, 0x00, 0x10, 0x01, 0x00, 0x00] := by decide

/-- V-SY-6: locked comes before the length. -/
theorem test_keyLoad_locked : answer (keyLoadCmd t0Config [0xC0, 0xC1, 0xC2]
    (withKey keyC)) = some [0x23, 0x01, 0x00, 0x00] := by decide

/-- V-SY-4. -/
theorem test_keyClr : answer (statRdCmd (keyClrCmd (keyLoadCmd t0Config keyC (withKey keyC)))) = some [0x00,
    0x00, 0x00, 0x00, 0x00, 0x00, 0x00, 0x00, 0x00, 0x00, 0x23, 0x00] := by decide

/-- V-SY-5. -/
theorem test_statRd_fatal : answer (statRdCmd (keyLoadCmd t0Config (keyC.take 15) State.reset)) = some [0x00,
    0x02, 0x00, 0x00, 0x00, 0x00, 0x00, 0x00, 0x00, 0x02, 0x20, 0x00] := by decide

/-- V-EX-3: the latch refuses the byte FF, the empty packet and FR.RST, and lets a malformed STAT.RD be illegal. -/
theorem test_latch :
    latchRefuses [0xFF] latched = true ∧ latchRefuses [] latched = true ∧
    latchRefuses [0x43, 0x00, 0x00, 0x00] latched = true ∧
    latchRefuses [0x52, 0x00, 0x01, 0x00, 0xAA] latched = false := by decide

-- Witnesses: for every obligation with hypotheses, states and operands that meet them, for each of its clauses.

/-- A frame under the machine's own configuration, whatever that is: an all-zero header and four trailer bytes. -/
def sampleFrame : Bytes := headerBytes cfg .login noHdr 0 ++ rep 0x00 4

theorem sampleFrame_length : sampleFrame.length = 44 := by simp [sampleFrame]

theorem sampleFrame_totalLength : totalLength sampleFrame = 44 := totalLength_headerBytes cfg .login noHdr (by omega) _

theorem header_headAt : headAt cfg (headerBytes cfg .login noHdr 0) := by
  have h := headerBytes_fields cfg .login noHdr 0
  refine ⟨by simp, h.1, h.2.2.2.2.2.2.2.2.2.2.2.2.2, ?_⟩
  have := totalLength_headerBytes cfg .login noHdr (n := 0) (by omega) []
  rw [List.append_nil] at this
  omega

theorem sampleFrame_headAt : headAt cfg sampleFrame := (headAt_append (by simp)).mpr header_headAt

theorem sampleFrame_hdrOk : hdrOk sampleFrame 0 := (hdrOk_iff (by omega)).mpr sampleFrame_headAt

/-- A byte that no start marker begins with. -/
def garbageByte : Byte := byteAt cfg.params.startMarker.1 0 + 1

/-- A state with a session key, bytes in the buffer and no error. -/
def loggedIn : State := (withKey cfg.params.kMaster).setFb [0x01, 0x02]

theorem loggedIn_inv : loggedIn.Inv :=
  ⟨rfl, fun h => by simp [loggedIn, withKey] at h, fun _ => cfg.legal.kMaster_length, .inl rfl, fun h => by
    simp [loggedIn, withKey, State.reset] at h⟩

/-- The 16 ciphertext bytes of the empty plaintext under the master key. -/
def emptyCt : Bytes := ecbEnc cfg cfg.params.kMaster (pad [])

theorem emptyCt_length : emptyCt.length = 16 := by rw [emptyCt, ecbEnc_length, pad_length]; rfl

theorem exec_emptyCt : exec (.ecbEnc .master []) State.reset = .next (respond .ok [] emptyCt State.reset) := rfl

theorem exec_emptyCt_dec : exec (.ecbDec .master emptyCt) State.reset = .next (respond .ok [] [] State.reset) := by
  have e : ecbDec cfg cfg.params.kMaster emptyCt = pad [] := ecbDec_ecbEnc cfg.legal.kMaster_length (by decide)
  show underLatch _ (ecbDecCmd cfg .master emptyCt State.reset) = _
  rw [underLatch_clear rfl]
  show Host.Outcome.next (if emptyCt.length = 0 ∨ emptyCt.length % 16 ≠ 0 then _ else _) = _
  rw [if_neg (by rw [emptyCt_length]; decide), e, unpad_pad]

/-- The frame FRM.ENC answers for two payload bytes, slot NONE. -/
def builtFrame : Bytes :=
  headerBytes cfg .session { noHdr with plen := 2 } 2 ++ [0xAA, 0xBB]
    ++ (cfg.params.sig (headerBytes cfg .session { noHdr with plen := 2 } 2 ++ [0xAA, 0xBB]) []).1

theorem exec_builtFrame : exec (.frmEnc .none .session { noHdr with plen := 2 } [0xAA, 0xBB]) State.reset =
    .next (respond .ok [] builtFrame State.reset) := rfl

theorem witness_ResetEventRestoresResetValues :
    ∃ (s : State) (rest : List PortEvent), s.inbox = .reset :: rest ∧ s.fb ≠ [] ∧ s.fatal = true :=
  ⟨(latched.setFb [0x01]).setInbox [.reset], [], rfl, by decide, rfl⟩

theorem witness_IdlePortChangesNothing : State.reset.inbox = [] := rfl

theorem witness_StepRunsDecodedCommand :
    (offered [0x52, 0x00, 0x00, 0x00]).inbox = [.packet [0x52, 0x00, 0x00, 0x00]] ∧
    decodeCmd [0x52, 0x00, 0x00, 0x00] = .ok .statRd := by decide

/-- `DLEN` of ECB.ENC at its largest legal value and one above it. -/
theorem witness_PacketIsRunOrIllegal :
    (offered [0x52, 0x00, 0x00, 0x00]).fatal = false ∧
    legalPacket ([0x10, 0x00, 0xEF, 0xFF] ++ List.replicate 65519 0x00) ∧
    ¬ legalPacket ([0x10, 0x00, 0xF0, 0xFF] ++ List.replicate 65520 0x00) := by
  refine ⟨rfl, ⟨.ecbEnc, ?_⟩, ?_⟩
  · refine ⟨by rw [List.length_append, List.length_replicate]; decide, rfl, ?_, by rfl, by decide, by decide, ?_,
      fun h => by cases h⟩
    · rw [List.length_append, List.length_replicate]; rfl
    · exact (by decide : dlenOf [0x10, 0x00, 0xEF, 0xFF] ≤ dlenColumn .ecbEnc)
  · rintro ⟨op, _, h0, _, _, _, _, hd, _⟩
    have hop : op = .ecbEnc := Opcode.code_injective h0.symm
    subst hop
    exact absurd hd (by decide : ¬ dlenOf [0x10, 0x00, 0xF0, 0xFF] ≤ dlenColumn .ecbEnc)

theorem witness_FatalLatchRefusesAllButStatRd :
    (present (.packet []) latched).fatal = true ∧ ([] : Bytes).head? ≠ some 0x52 ∧
    ([0x52, 0x00, 0x00, 0x00] : Bytes).head? = some 0x52 ∧ legalPacket [0x52, 0x00, 0x00, 0x00] ∧
    ¬ legalPacket [0x52, 0x00, 0x01, 0x00, 0xAA] := by
  refine ⟨rfl, by decide, by decide, ⟨.statRd, by unfold legalFor; decide⟩, ?_⟩
  rintro ⟨op, _, h0, _, _, _, _, hd, _⟩
  have hop : op = .statRd := Opcode.code_injective h0.symm
  subst hop
  exact absurd hd (by decide)

theorem witness_FatalSetByFatalErrorsClearedByReset :
    (∃ t, step (latched.setInbox [.reset]) = .next t ∧ latched.fatal = true ∧ t.fatal = false) ∧
    (∃ t, step (offered [0x11, 0x00, 0x01, 0x00, 0xAA]) = .next t ∧ t.fatal = true) ∧
    (∃ t, step (offered [0x12, 0x00, 0x00, 0x00]) = .next t ∧ t.fatal = false) :=
  ⟨⟨_, rfl, rfl, rfl⟩, ⟨_, rfl, rfl⟩, ⟨_, rfl, rfl⟩⟩

theorem witness_EveryPacketIsAnsweredOnce :
    (∃ t r, step (offered []) = .next t ∧ t.outbox = [r] ∧ r.sts.isError = true) ∧
    (∃ t r, step (offered [0x41, 0x00, 0x00, 0x00]) = .next t ∧ t.outbox = [r] ∧ r.sts = .needMore ∧
      r.sts.isError = false) :=
  ⟨⟨_, _, rfl, rfl, rfl⟩, ⟨_, _, rfl, rfl, rfl, rfl⟩⟩

/-- The codes of R180, against the bytes of a response. -/
theorem test_status_codes :
    ([.ok, .needMore, .illegal, .fatal, .cryptoKeylen, .cryptoBlklen, .cryptoPad, .keyLocked, .framingLen, .framingOversize,
      .framingOverflow] : List Status).map (fun e => (Response.mk e 0x00 [] []).bytes.take 1) =
    [[0x00], [0x01], [0x10], [0x11], [0x20], [0x21], [0x22], [0x23], [0x30], [0x31], [0x32]] := by decide

theorem witness_ResponsePacketLayout : (Response.mk .ok 0x00 [] (List.replicate 65535 0x00)).rdata.length ≤ 65535 :=
  le_of_eq List.length_replicate

theorem witness_ErrorsChangeOnlyErrorState :
    (∃ t r, step (offered [0x11, 0x00, 0x01, 0x00, 0xAA]) = .next t ∧ t.outbox = [r] ∧ r.sts.isError = true ∧
      r.sts = .cryptoBlklen) ∧
    (∃ t r, step (offered [0x22, 0x00, 0x00, 0x00]) = .next t ∧ t.outbox = [r] ∧ r.sts.isError = true ∧
      r.sts = .framingLen) :=
  ⟨⟨_, _, rfl, rfl, rfl, rfl⟩, ⟨_, _, rfl, rfl, rfl, rfl⟩⟩

theorem witness_CommandsWriteOnlyTheirColumns :
    (∃ t, exec (.sigGen .none [0x01]) loggedIn = .next t ∧ writesFb (.sigGen .none [0x01]) = false ∧
      writesKey (.sigGen .none [0x01]) = false) ∧
    (∃ t, exec .frRst loggedIn = .next t ∧ writesKey .frRst = false) ∧
    (∃ t, exec .keyClr loggedIn = .next t ∧ writesFb .keyClr = false) :=
  ⟨⟨_, rfl, rfl, rfl⟩, ⟨_, rfl, rfl⟩, ⟨_, rfl, rfl⟩⟩

theorem witness_RepeatingCommands :
    (∃ t u r, exec (.sigGen .none [0x01]) loggedIn = .next t ∧ t.outbox = loggedIn.outbox ++ [r] ∧ r.sts = .ok ∧
      exec (.sigGen .none [0x01]) t = .next u) ∧
    (∃ t u, exec .frRst loggedIn = .next t ∧ exec .frRst t = .next u) ∧
    (∃ t u, exec .keyClr loggedIn = .next t ∧ exec .keyClr t = .next u) ∧
    (State.reset.fatal = false ∧ State.reset.ksValid = false ∧ cfg.params.kMaster.length ∈ cfg.params.keyLens ∧
      ∃ t, exec (.keyLoad cfg.params.kMaster) State.reset = .next t) :=
  ⟨⟨_, _, _, rfl, rfl, rfl, rfl⟩, ⟨_, _, rfl, rfl⟩, ⟨_, _, rfl, rfl⟩, rfl, rfl, cfg.legal.kMaster_length, _, rfl⟩

theorem witness_EcbEncEnciphersPaddedBlocks :
    loggedIn.fatal = false ∧ cipherKeyIs .master loggedIn cfg.params.kMaster ∧
    cipherKeyIs .visit loggedIn cfg.params.kVisit ∧
    cipherKeyIs .session loggedIn loggedIn.ks ∧
    ∃ b : Block, b.1 = slice ([] ++ List.replicate (16 - 0 % 16) (BitVec.ofNat 8 (16 - 0 % 16))) (16 * 0) (16 * 0 + 16) :=
  ⟨rfl, rfl, rfl, ⟨rfl, rfl⟩, ⟨_, rfl⟩, rfl⟩

theorem witness_EcbDecDeciphersAndUnpads :
    loggedIn.fatal = false ∧ cipherKeyIs .session loggedIn loggedIn.ks ∧ 0 < emptyCt.length ∧ emptyCt.length % 16 = 0 :=
  ⟨rfl, ⟨rfl, rfl⟩, by rw [emptyCt_length]; decide, by rw [emptyCt_length]⟩

theorem witness_CipherErrorsKeyBeforeLength :
    State.reset.fatal = false ∧ State.reset.ksValid = false ∧ cipherKeyIs .master State.reset cfg.params.kMaster ∧
    (([] : Bytes).length = 0 ∨ ([] : Bytes).length % 16 ≠ 0) ∧
    ((rep 0x00 17).length = 0 ∨ (rep 0x00 17).length % 16 ≠ 0) := ⟨rfl, rfl, rfl, by decide, by decide⟩

theorem witness_EcbRoundTrip :
    State.reset.Inv ∧ ([] : Bytes).length ≤ 65519 ∧
    exec (.ecbEnc .master []) State.reset = .next (respond .ok [] emptyCt State.reset) :=
  ⟨⟨rfl, fun _ => rfl, fun h => by simp [State.reset] at h, .inl rfl, fun h => by simp [State.reset] at h⟩,
    by decide, exec_emptyCt⟩

theorem witness_CipherLengthLaws :
    exec (.ecbEnc .master []) State.reset = .next (respond .ok [] emptyCt State.reset) ∧
    exec (.ecbDec .master emptyCt) State.reset = .next (respond .ok [] [] State.reset) := ⟨exec_emptyCt, exec_emptyCt_dec⟩

/-- Two slots that hold one key: MASTER, and SESSION after the master key was loaded. -/
theorem witness_CiphertextBlockIndependence :
    cipherKeyIs .master State.reset cfg.params.kMaster ∧ cipherKeyIs .session loggedIn cfg.params.kMaster ∧
    exec (.ecbEnc .master []) State.reset = .next (respond .ok [] emptyCt State.reset) ∧
    exec (.ecbEnc .session []) loggedIn = .next (respond .ok [] emptyCt loggedIn) ∧ 0 < ([] : Bytes).length / 16 + 1 :=
  ⟨rfl, ⟨rfl, rfl⟩, rfl, rfl, by decide⟩

theorem witness_HdrEncWritesEveryField :
    State.reset.fatal = false ∧ ({ noHdr with plen := 65491 } : Hdesc).plen.toNat ≤ 65491 ∧
    65491 < ({ noHdr with plen := 65492 } : Hdesc).plen.toNat := by decide

theorem witness_FrmEncSignsHeaderAndPayload :
    loggedIn.fatal = false ∧ signKeyIs .session loggedIn loggedIn.ks ∧ signKeyIs .none loggedIn [] ∧
    (List.replicate 65491 (0x00 : Byte)).length ≤ 65491 ∧ 65491 < (List.replicate 65492 (0x00 : Byte)).length ∧
    State.reset.fatal = false ∧ State.reset.ksValid = false := ⟨rfl, ⟨rfl, rfl⟩, rfl, le_of_eq List.length_replicate,
    lt_of_lt_of_eq (by decide) List.length_replicate.symm, rfl, rfl⟩

theorem witness_FrmDecSplitsFrame :
    State.reset.fatal = false ∧ 44 ≤ f0.length ∧ (le16 (slice f0 2 4)).toNat = f0.length ∧ (f0.take 43).length < 44 ∧
    (le16 (slice (f0 ++ [0x00]) 2 4)).toNat ≠ (f0 ++ [0x00]).length := by decide

theorem witness_HeaderFieldsRoundTrip :
    ([0xAA, 0xBB] : Bytes).length ≤ 65491 ∧ exec (.frmEnc .none .session { noHdr with plen := 2 } [0xAA, 0xBB]) State.reset =
      .next (respond .ok [] builtFrame State.reset) ∧ signKeyIs .none State.reset [] := ⟨by decide, exec_builtFrame, rfl⟩

theorem witness_FramerTakesBuiltFrame :
    ([0xAA, 0xBB] : Bytes).length ≤ 65491 ∧ exec (.frmEnc .none .session { noHdr with plen := 2 } [0xAA, 0xBB]) State.reset =
      .next (respond .ok [] builtFrame State.reset) ∧ State.reset.fb = [] := ⟨by decide, exec_builtFrame, rfl⟩

theorem witness_FrmEncIsHdrEncThenSigGen :
    (Instr.frmEnc .none .session { noHdr with plen := 2 } [0xAA, 0xBB]).wellFormed = true := by decide

theorem witness_SigGenSigns :
    loggedIn.fatal = false ∧ signKeyIs .session loggedIn loggedIn.ks ∧ signKeyIs .none loggedIn [] ∧
    State.reset.fatal = false ∧ State.reset.ksValid = false := ⟨rfl, ⟨rfl, rfl⟩, rfl, rfl, rfl⟩

/-- A frame whose trailer is the signature, the same frame with another trailer, and two of wrong length. -/
theorem witness_SigChkComparesTrailer :
    State.reset.fatal = false ∧ State.reset.ksValid = false ∧ signKeyIs .none State.reset [] ∧
    (44 ≤ builtFrame.length ∧ (le16 (slice builtFrame 2 4)).toNat = builtFrame.length ∧
      (cfg.params.sig (builtFrame.take (builtFrame.length - 4)) []).1 = builtFrame.drop (builtFrame.length - 4)) ∧
    (∃ x : Byte, (cfg.params.sig (f0.take (f0.length - 4)) []).1 ≠ [x, 0x01, 0x00, 0x00] ∧
      ∃ d : Bytes, d = f0.take 40 ++ [x, 0x01, 0x00, 0x00] ∧ 44 ≤ d.length ∧ (le16 (slice d 2 4)).toNat = d.length ∧
        (cfg.params.sig (d.take (d.length - 4)) []).1 ≠ d.drop (d.length - 4)) ∧
    (f0.take 43).length < 44 ∧ (le16 (slice (f0 ++ [0x00]) 2 4)).toNat ≠ (f0 ++ [0x00]).length := by
  have hs := (cfg.params.sig (headerBytes cfg .session { noHdr with plen := 2 } 2 ++ [0xAA, 0xBB]) []).2
  have hok : frameLengthOk builtFrame = true :=
    built_frameLengthOk cfg .session { noHdr with plen := 2 } [0xAA, 0xBB] _ (by decide)
  obtain ⟨h1, h2⟩ := frameLengthOk_iff.mp hok
  have hl : builtFrame.length - 4 = (headerBytes cfg .session { noHdr with plen := 2 } 2 ++ [0xAA, 0xBB]).length := by
    rw [builtFrame, List.length_append, hs, Nat.add_sub_cancel]
  refine ⟨rfl, rfl, rfl, ⟨h1, h2, ?_⟩, ?_, by decide, by decide⟩
  · rw [hl]
    conv_lhs => rw [builtFrame, List.take_left]
    conv_rhs => rw [builtFrame, List.drop_left]
  · have hx : ∃ x : Byte, (cfg.params.sig (f0.take 40) []).1 ≠ [x, 0x01, 0x00, 0x00] := by
      by_contra hc
      have h0 := (not_exists_not.mp hc) 0x00
      have h1 := (not_exists_not.mp hc) 0x01
      rw [h0] at h1
      exact absurd h1 (by decide)
    obtain ⟨x, hx⟩ := hx
    exact ⟨x, hx, _, rfl, (by decide : 44 ≤ 44), (by decide : (le16 [0x2C, 0x00]).toNat = 44), hx⟩

theorem witness_BuiltFrameVerifies :
    ([0xAA, 0xBB] : Bytes).length ≤ 65491 ∧ exec (.frmEnc .none .session { noHdr with plen := 2 } [0xAA, 0xBB]) State.reset =
      .next (respond .ok [] builtFrame State.reset) := ⟨by decide, exec_builtFrame⟩

/-- A buffer filled to its capacity by one push, and one byte too many. -/
theorem witness_FrPushAppendsAllOrNothing :
    (withFb (rep 0x00 131070)).fatal = false ∧ (withFb (rep 0x00 131070)).fb.length + (rep 0x00 2).length ≤ 131072 ∧
    131072 < (withFb (rep 0x00 131070)).fb.length + (rep 0x00 3).length := ⟨rfl, by simp [withFb], by simp [withFb]⟩

theorem witness_FrPopStopsAtFirstHeader : (withFb sampleFrame).fatal = false := rfl

/-- A loop that returns no frame, and one that returns one. -/
theorem witness_FrPopRunsTheSourceLoop :
    State.reset.fatal = false ∧ (extractLoop State.reset.fb (State.reset.fb.length - 39 + 1) 0).frame = none ∧
    (withFb sampleFrame).fatal = false ∧
    ∃ f, (extractLoop (withFb sampleFrame).fb ((withFb sampleFrame).fb.length - 39 + 1) 0).frame = some f := by
  refine ⟨rfl, rfl, rfl, slice sampleFrame 0 (0 + declaredLen sampleFrame 0), ?_⟩
  obtain ⟨h1, h2, h3, h4⟩ := sampleFrame_hdrOk
  have hd : declaredLen sampleFrame 0 = 44 := by rw [declaredLen_eq, List.drop_zero, sampleFrame_totalLength]
  show (extractLoop sampleFrame (sampleFrame.length - 39 + 1) 0).frame = _
  rw [extractLoop, if_neg (by omega), if_neg (not_not.mpr h2), if_neg (not_not.mpr h3), if_neg (by omega),
    if_neg (by rw [sampleFrame_length, hd]; decide)]

/-- Fewer than 40 bytes, and a header whose frame is incomplete. -/
theorem witness_NeedMoreLeavesRoomForOnePush :
    (∃ t r, exec .frPop State.reset = .next t ∧ t.outbox = State.reset.outbox ++ [r] ∧ r.sts = .needMore) ∧
    (∃ t r, exec .frPop (withFb (headerBytes cfg .login noHdr 0)) = .next t ∧
      t.outbox = (withFb (headerBytes cfg .login noHdr 0)).outbox ++ [r] ∧ r.sts = .needMore) ∧
    (∃ t r, exec (.frFeed [0x01]) State.reset = .next t ∧ t.outbox = State.reset.outbox ++ [r] ∧ r.sts = .needMore) := by
  refine ⟨⟨_, _, rfl, rfl, rfl⟩, ?_, ⟨_, _, rfl, rfl, rfl⟩⟩
  have hx := extract_of_headAt header_headAt
  have ht : totalLength (headerBytes cfg .login noHdr 0) = 44 := by
    have := totalLength_headerBytes cfg .login noHdr (n := 0) (by omega) []
    rwa [List.append_nil] at this
  rw [ht, if_pos (by simp)] at hx
  refine ⟨_, ⟨.needMore, 0x00, natBytes32 40, []⟩, underLatch_clear rfl, ?_, rfl⟩
  simp only [frPopCmd, withFb, State.setFb_fb, hx]
  simp [flagsByte, State.reset]

theorem witness_FrFeedIsPushThenPop :
    (withFb (rep 0x00 131070)).fatal = false ∧ (withFb (rep 0x00 131070)).fb.length + (rep 0x00 2).length ≤ 131072 ∧
    131072 < (withFb (rep 0x00 131070)).fb.length + (rep 0x00 3).length := ⟨rfl, by simp [withFb], by simp [withFb]⟩

theorem witness_FrRstEmptiesBuffer : loggedIn.fatal = false := rfl

theorem witness_FramerBufferIsFifo :
    (∃ t r, exec (.frPush [0x03]) loggedIn = .next t ∧ t.outbox = loggedIn.outbox ++ [r] ∧ r.sts.isError = false) ∧
    (∃ t r, exec (.frFeed [0x03]) loggedIn = .next t ∧ t.outbox = loggedIn.outbox ++ [r] ∧ r.sts.isError = false) ∧
    (∃ t r, exec .frPop loggedIn = .next t ∧ t.outbox = loggedIn.outbox ++ [r] ∧ r.sts.isError = false) :=
  ⟨⟨_, _, rfl, rfl, rfl⟩, ⟨_, _, rfl, rfl, rfl⟩, ⟨_, _, rfl, rfl, rfl⟩⟩

theorem witness_ChunkingInvariance :
    State.reset.fatal = false ∧ State.reset.fb = [] ∧
    (∀ d ∈ [sampleFrame.take 20, sampleFrame.drop 20], d.length ≤ 65535) ∧
    (∀ d ∈ [sampleFrame], d.length ≤ 65535) ∧
    [sampleFrame.take 20, sampleFrame.drop 20].flatten = [sampleFrame].flatten := by
  refine ⟨rfl, rfl, ?_, ?_, by simp⟩ <;> simp [sampleFrame_length]

/-- A garbage byte begins no header, however much garbage there is. -/
theorem garbage_no_hdrOk (n j : Nat) (hj : j < n) : ¬ hdrOk (List.replicate n garbageByte ++ sampleFrame) j := by
  rintro ⟨_, h, _⟩
  obtain ⟨a, b, e⟩ := ByteN.two cfg.params.startMarker
  have hd : (List.replicate n garbageByte ++ sampleFrame).drop j =
      garbageByte :: (List.replicate (n - j - 1) garbageByte ++ sampleFrame) := by
    rw [List.drop_append_of_le_length (by rw [List.length_replicate]; omega), List.drop_replicate,
      show n - j = n - j - 1 + 1 by omega, List.replicate_succ, List.cons_append, Nat.add_sub_cancel]
  have h0 : byteAt (slice (List.replicate n garbageByte ++ sampleFrame) j (j + 2)) 0 = garbageByte := by
    rw [slice, hd, Nat.add_sub_cancel_left]; rfl
  rw [h, e] at h0
  have hg : garbageByte = a + 1 := by rw [garbageByte, e]; rfl
  have ha : a = a + 1 := h0.trans hg
  clear h0 hg hd e h
  revert a
  decide

/-- More garbage than one push carries, in a packet of its own; and garbage and frame that fill one packet exactly. -/
theorem witness_GarbageBeforeFrameIsDropped :
    hdrOk sampleFrame 0 ∧ sampleFrame.length = declaredLen sampleFrame 0 ∧
    (∀ j < (List.replicate 65535 garbageByte).length, ¬ hdrOk (List.replicate 65535 garbageByte ++ sampleFrame) j) ∧
    (∀ d ∈ [List.replicate 65535 garbageByte, sampleFrame], d.length ≤ 65535) ∧
    [List.replicate 65535 garbageByte, sampleFrame].flatten = List.replicate 65535 garbageByte ++ sampleFrame ∧
    State.reset.fatal = false ∧ State.reset.fb = [] ∧
    (∀ j < (List.replicate 65491 garbageByte).length, ¬ hdrOk (List.replicate 65491 garbageByte ++ sampleFrame) j) ∧
    (List.replicate 65491 garbageByte ++ sampleFrame).length ≤ 65535 ∧
    (withFb (List.replicate 65535 garbageByte ++ sampleFrame)).fatal = false ∧
    (withFb (List.replicate 65535 garbageByte ++ sampleFrame)).fb = List.replicate 65535 garbageByte ++ sampleFrame := by
  refine ⟨sampleFrame_hdrOk, ?_, ?_, ?_, ?_, rfl, rfl, ?_, ?_, rfl, rfl⟩
  · rw [declaredLen_eq, List.drop_zero, sampleFrame_totalLength, sampleFrame_length]
  · intro j hj; rw [List.length_replicate] at hj; exact garbage_no_hdrOk _ j hj
  · intro d hd
    rcases List.mem_cons.mp hd with rfl | hd
    · exact le_of_eq List.length_replicate
    · rw [List.mem_singleton.mp hd, sampleFrame_length]; decide
  · rw [List.flatten_cons, List.flatten_cons, List.flatten_nil, List.append_nil]
  · intro j hj; rw [List.length_replicate] at hj; exact garbage_no_hdrOk _ j hj
  · rw [List.length_append, List.length_replicate, sampleFrame_length]

/-- The clauses' boundaries: a key present, a legal length, and the empty key. -/
theorem witness_KeyLoadInstallsOnce :
    loggedIn.fatal = false ∧ loggedIn.ksValid = true ∧ State.reset.fatal = false ∧ State.reset.ksValid = false ∧
    cfg.params.kMaster.length ∈ cfg.params.keyLens ∧ ([] : Bytes).length ∉ cfg.params.keyLens ∧
    (List.replicate 65535 (0x00 : Byte)).length ≤ 65535 :=
  ⟨rfl, rfl, rfl, rfl, cfg.legal.kMaster_length, fun h => absurd (cfg.legal.keyLens_range _ h).1 (by decide),
    le_of_eq List.length_replicate⟩

theorem witness_KeyClrForgetsKey : loggedIn.fatal = false ∧ loggedIn.ksValid = true := ⟨rfl, rfl⟩

theorem witness_StatRdShowsState : loggedIn.Inv := loggedIn_inv

theorem witness_KeyLifecycle :
    (∃ t, step (present (.packet [0x43, 0x00, 0x00, 0x00]) loggedIn) = .next t ∧ loggedIn.ksValid = true ∧
      t.ksValid = true) ∧
    (∃ t, step (present (.packet [0x51, 0x00, 0x00, 0x00]) loggedIn) = .next t ∧ t.ksValid = false) ∧
    (∃ s t : State, step s = .next t ∧ s.ksValid = false ∧ t.ksValid = true ∧ ∃ c, s.inbox = [.packet c]) := by
  refine ⟨⟨_, rfl, rfl, rfl⟩, ⟨_, rfl, rfl⟩, ?_⟩
  have hw : (Instr.keyLoad cfg.params.kMaster).wellFormed = true := by
    have := (cfg.legal.keyLens_range _ cfg.legal.kMaster_length).2
    have hle : cfg.params.kMaster.length ≤ maxData := this.trans (by decide)
    simp [Instr.wellFormed, Instr.data, Instr.maxDlen, Instr.plenAgrees, hle]
  have hd : decodeCmd (encode (.keyLoad cfg.params.kMaster)) = .ok (.keyLoad cfg.params.kMaster) := by
    have hl := Instr.wellFormed_length hw
    rw [decodeCmd_of_checks (op := .keyLoad) (by rw [encode_length]; omega) rfl
      (by rw [encode_length, encode_dlen _ hl]; rfl) (by rfl)]
    exact decodeBody_parts hw
  refine ⟨offered (encode (.keyLoad cfg.params.kMaster)), _, (step_packet rfl).trans (takePacket_ok hd _), rfl, ?_, _, rfl⟩
  show (keyLoadCmd cfg cfg.params.kMaster State.reset).ksValid = true
  rw [keyLoadCmd, if_neg (by decide), if_neg (by simpa using cfg.legal.kMaster_length)]
  rfl

theorem witness_SessionKeyBytesAreNotShown :
    ¬ usesSession .statRd ∧ cfg.params.kMaster.length = loggedIn.ks.length ∧ ∃ t, exec .statRd loggedIn = .next t :=
  ⟨by unfold usesSession; decide, rfl, _, rfl⟩

theorem witness_KeylenErrorHasTwoCauses :
    (∃ t r, exec (.sigGen .session [0x01]) State.reset = .next t ∧ t.outbox = State.reset.outbox ++ [r] ∧
      r.sts = .cryptoKeylen ∧ usesSession (.sigGen .session [0x01])) ∧
    (∃ t r, exec (.keyLoad []) State.reset = .next t ∧ t.outbox = State.reset.outbox ++ [r] ∧ r.sts = .cryptoKeylen) := by
  refine ⟨⟨_, _, rfl, rfl, rfl, rfl⟩, ⟨raise .cryptoKeylen State.reset, _, ?_, rfl, rfl⟩⟩
  have h : ([] : Bytes).length ∉ cfg.params.keyLens := fun h => absurd (cfg.legal.keyLens_range _ h).1 (by decide)
  show underLatch _ _ = _
  rw [underLatch_clear rfl, keyLoadCmd, if_neg (by decide), if_pos h]

theorem witness_EveryStepKeepsInv :
    loggedIn.Inv ∧ ∃ t, step (loggedIn.setInbox [.packet [0x41, 0x00, 0x00, 0x00]]) = .next t := ⟨loggedIn_inv, _, rfl⟩

theorem witness_EveryStepKeepsResponsesFit :
    State.ResponsesFit (offered [0x52, 0x00, 0x00, 0x00]) ∧ ∃ t, step (offered [0x52, 0x00, 0x00, 0x00]) = .next t := by
  refine ⟨fun r hr => ?_, _, rfl⟩
  simp [offered, present, State.reset] at hr

/-- Well-formed commands at the largest data an encoding admits. -/
theorem witness_DecodeOfEncode :
    (Instr.ecbEnc .session (List.replicate 65519 0x00)).wellFormed = true ∧
    (Instr.frmEnc .none .session { noHdr with plen := 65535 } (List.replicate 65535 0x00)).wellFormed = true := by
  constructor <;> simp only [Instr.wellFormed, Instr.data, Instr.maxDlen, Instr.plenAgrees, List.length_replicate] <;> decide

theorem witness_EncodeOfDecode : decodeCmd [0x30, 0x03, 0x00, 0x00] = .ok (.sigGen .none []) := by decide

theorem witness_DecodedPacketSelectsOneRow : decodeCmd [0x21, 0x07, 0x00, 0x00, 0x00, 0x00, 0x00, 0x00, 0x00, 0x00, 0x00, 0x00,
    0x00, 0x00, 0x00, 0x00, 0x00, 0x00, 0x00, 0x00, 0x00, 0x00, 0x00, 0x00, 0x00, 0x00] =
    .ok (.frmEnc .none .session noHdr []) := by decide

end Sys2Proof.Tests
end

section
/-! Every packet is answered once (00_scope R3, 30_encoding R84), from what a step on a packet can do (`packet_ends`). -/

namespace Sys2Proof.Machine

/-- A packet always leads to a next state, whether or not it decodes (R3, R183). -/
theorem takePacket_total (c : Bytes) (s : State) : ∃ t, takePacket c s = .next t := by
  rcases takePacket_cases c s with ⟨_, _, e⟩ | ⟨_, _, e⟩ | ⟨i, _, e⟩ <;> rw [e]
  · exact ⟨_, rfl⟩
  · exact ⟨_, rfl⟩
  · exact exec_total i s

/-- `r` is the one response by which `t` answers packet `c`, offered in state `s` (R27, R83, R84). -/
structure AnswersPacket (c : Bytes) (s t : State) (r : Response) : Prop where
  inbox : t.inbox = s.inbox
  outbox : t.outbox = s.outbox ++ [r]
  flg : r.flg = flagsByte t
  error : r.sts.isError = true → r.res = [] ∧ r.rdata = [] ∧ t.lastErr = r.sts.code
  normal : r.sts.isError = false → t.lastErr = s.lastErr ∧ (r.sts ≠ .ok → r.rdata = []) ∧
    ∃ i, decodeCmd c = .ok i ∧ r.res.length = resSize i

/-- A raised error answers any packet with an empty response. -/
theorem raise_answersPacket {e : Status} (c : Bytes) (s : State) (he : e.isError = true) :
    AnswersPacket c s (raise e s) ⟨e, flagsByte (raise e s), [], []⟩ where
  inbox := raise_inbox e s
  outbox := raise_outbox e s
  flg := rfl
  error _ := ⟨rfl, rfl, raise_lastErr e s⟩
  normal h := absurd (he.symm.trans h) (by decide)

/-- A command's answer without error answers the packet the command was decoded from. -/
theorem Answers.answersPacket {c : Bytes} {i : Instr} {s u : State} {sts : Status} {res rdata : Bytes}
    (hi : decodeCmd c = .ok i) (h : Answers i s sts res rdata u) :
    AnswersPacket c s (respond sts res rdata u) ⟨sts, flagsByte u, res, rdata⟩ where
  inbox := h.inbox
  outbox := by rw [respond_outbox, h.outbox]
  flg := rfl
  error he := absurd (he.symm.trans h.sts_normal) (by decide)
  normal _ := ⟨h.lastErr, h.rdata_ok, i, hi, h.res_length⟩

/-- Settles O8: the step on a packet is total, and it ends with a raised error or a command's answer, each of which
delivers one response. -/
theorem everyPacketIsAnsweredOnce : Obligations.EveryPacketIsAnsweredOnce := by
  intro s c rest hq
  obtain ⟨t, ht⟩ := takePacket_total c (s.setInbox rest)
  have hstep : step s = .next t := (step_packet hq).trans ht
  have hanswer : ∃ r, AnswersPacket c (s.setInbox rest) t r := by
    rcases packet_ends hq hstep with ⟨e, he, rfl⟩ | ⟨i, sts, res, rdata, u, hi, rfl, ha⟩
    · exact ⟨_, raise_answersPacket c _ he⟩
    · exact ⟨_, ha.answersPacket hi⟩
  obtain ⟨r, h⟩ := hanswer
  exact ⟨t, r, hstep, h.inbox, h.outbox, h.flg, h.error, h.normal⟩

end Sys2Proof.Machine
end

section
/-! The invariant of 10_state (R22, R24, R26, R27, R31): the reset state meets it, and every way a step can end keeps it. -/

namespace Sys2Proof.Machine

/-- The code of an error is not the 0 that LAST_ERR holds after reset (R27, R180). -/
theorem Status.code_ne_zero_of_isError {e : Status} (h : e.isError = true) : e.code ≠ 0 := by
  revert h; cases e <;> decide

/-- Settles O1: the fields of `State.reset` are the values of R31. -/
theorem resetLeavesR31Values : Obligations.ResetLeavesR31Values := ⟨rfl, rfl, rfl, rfl, rfl⟩

/-- Settles O44: the buffer and the key are empty, and no error is recorded. -/
theorem resetMeetsInv : Obligations.ResetMeetsInv where
  fb_cap := Memory.reset_wf
  ks_absent _ := rfl
  ks_legal h := absurd h (by decide)
  last_err := .inl rfl
  fatal_err h := absurd h (by decide)

/-- The port's sides are no part of the invariant: a reset event meets it as the reset state does (R200). -/
theorem applyReset_inv (s : State) : (applyReset s).Inv :=
  ⟨resetMeetsInv.fb_cap, resetMeetsInv.ks_absent, resetMeetsInv.ks_legal, resetMeetsInv.last_err, resetMeetsInv.fatal_err⟩

theorem State.Inv.setInbox {s : State} (h : s.Inv) (q : List PortEvent) : (s.setInbox q).Inv :=
  ⟨h.fb_cap, h.ks_absent, h.ks_legal, h.last_err, h.fatal_err⟩

theorem State.Inv.respond {s : State} (h : s.Inv) (sts : Status) (res rdata : Bytes) : (respond sts res rdata s).Inv :=
  ⟨h.fb_cap, h.ks_absent, h.ks_legal, h.last_err, h.fatal_err⟩

/-- An error leaves FB and the key, and its code in LAST_ERR, whether or not it sets FATAL (R184). -/
theorem State.Inv.raise {s : State} (h : s.Inv) {e : Status} (he : e.isError = true) : (raise e s).Inv where
  fb_cap := h.fb_cap
  ks_absent := h.ks_absent
  ks_legal := h.ks_legal
  last_err := .inr ⟨e, he, rfl⟩
  fatal_err _ := Status.code_ne_zero_of_isError he

/-- After an answer without error the key is the one before, the one loaded, whose length was checked, or none (R170, R171). -/
theorem Answers.key_inv {i : Instr} {s u : State} {sts : Status} {res rdata : Bytes} (h : Answers i s sts res rdata u)
    (hs : s.Inv) : (u.ksValid = false → u.ks = []) ∧ (u.ksValid = true → u.ks.length ∈ cfg.params.keyLens) := by
  rcases h.key with ⟨hks, hv⟩ | ⟨k, _, _, hlen, hks, hv⟩ | ⟨_, hks, hv⟩ <;> rw [hks, hv]
  · exact ⟨hs.ks_absent, hs.ks_legal⟩
  · exact ⟨fun h => absurd h (by decide), fun _ => hlen⟩
  · exact ⟨fun _ => rfl, fun h => absurd h (by decide)⟩

/-- An answer without error keeps the invariant. -/
theorem Answers.inv {i : Instr} {s u : State} {sts : Status} {res rdata : Bytes} (h : Answers i s sts res rdata u)
    (hs : s.Inv) : u.Inv where
  fb_cap := h.fb_wf hs.fb_cap
  ks_absent := (h.key_inv hs).1
  ks_legal := (h.key_inv hs).2
  last_err := h.lastErr ▸ hs.last_err
  fatal_err := h.fatal ▸ h.lastErr ▸ hs.fatal_err

/-- Settles O43: a step waits, resets, raises an error or answers without one, and each of the four keeps the invariant. -/
theorem everyStepKeepsInv : Obligations.EveryStepKeepsInv := by
  intro s t hs ht
  rcases step_cases ht with ⟨_, rfl⟩ | ⟨rest, _, rfl⟩ | ⟨c, rest, hq, _⟩
  · exact hs
  · exact applyReset_inv _
  · have hs' : (s.setInbox rest).Inv := hs.setInbox rest
    rcases packet_ends hq ht with ⟨e, he, rfl⟩ | ⟨i, sts, res, rdata, u, _, rfl, ha⟩
    · exact hs'.raise he
    · exact (ha.inv hs').respond sts res rdata

end Sys2Proof.Machine
end

section
/-! The FATAL latch (10_state R26, 60_exceptions R186): what a step does to it, in terms of the status the step answers. -/

namespace Sys2Proof.Machine

/-- A normal status is no fatal error. -/
theorem Status.isFatal_of_normal {e : Status} (h : e.isError = false) : e.isFatal = false := by
  revert h; cases e <;> decide

/-- The step from `s` to `t` answered with one of the two fatal errors. -/
def AnsweredFatally (s t : State) : Prop :=
  ∃ r, t.outbox = s.outbox ++ [r] ∧ (r.sts = .cryptoKeylen ∨ r.sts = .cryptoBlklen)

theorem not_answeredFatally_of_outbox_eq {s t : State} (h : t.outbox = s.outbox) : ¬ AnsweredFatally s t := by
  rintro ⟨r, hr, _⟩
  exact absurd (hr.symm.trans h) (by simp)

theorem answeredFatally_iff {s t : State} {r : Response} (h : t.outbox = s.outbox ++ [r]) :
    AnsweredFatally s t ↔ r.sts.isFatal = true := by
  rw [Status.isFatal_iff]
  constructor
  · rintro ⟨r', hr', hsts⟩
    rwa [outbox_last_inj (h.symm.trans hr')]
  · exact fun hsts => ⟨r, h, hsts⟩

/-- A packet is answered by one response, and FATAL is set if it was set or the response's status is fatal. -/
theorem packet_fatal {s t : State} {c : Bytes} {rest : List PortEvent} (hq : s.inbox = .packet c :: rest)
    (ht : step s = .next t) : ∃ r, t.outbox = s.outbox ++ [r] ∧ t.fatal = (s.fatal || r.sts.isFatal) := by
  rcases packet_ends hq ht with ⟨e, _, rfl⟩ | ⟨i, sts, res, rdata, u, _, rfl, ha⟩
  · exact ⟨_, raise_outbox _ _, raise_fatal _ _⟩
  · refine ⟨⟨sts, flagsByte u, res, rdata⟩, by rw [respond_outbox, ha.outbox, State.setInbox_outbox], ?_⟩
    rw [respond_fatal, ha.fatal, State.setInbox_fatal, Status.isFatal_of_normal ha.sts_normal, Bool.or_false]

/-- Settles O7: the wait keeps the latch, a reset clears it, and a packet sets it exactly with a fatal status; only the
packet is answered. -/
theorem fatalSetByFatalErrorsClearedByReset : Obligations.FatalSetByFatalErrorsClearedByReset := by
  intro s t ht
  change _ ∧ (_ → (t.fatal = true ↔ AnsweredFatally s t))
  rcases step_cases ht with ⟨_, rfl⟩ | ⟨rest, hq, rfl⟩ | ⟨c, rest, hq, _⟩
  · refine ⟨fun h h' => absurd (h.symm.trans h') (by decide), fun h => ?_⟩
    exact iff_of_false (by simp [h]) (not_answeredFatally_of_outbox_eq rfl)
  · refine ⟨fun _ _ => ⟨rest, hq⟩, fun _ => ?_⟩
    exact iff_of_false Bool.false_ne_true (not_answeredFatally_of_outbox_eq rfl)
  · obtain ⟨r, hr, hf⟩ := packet_fatal hq ht
    rw [answeredFatally_iff hr, hf]
    exact ⟨fun h h' => absurd h' (by simp [h]), fun h => by rw [h, Bool.false_or]⟩

end Sys2Proof.Machine
end

section
/-! What a command leaves unchanged (10_state R32, 20_memory R55), from what any command can do (`exec_ends`). -/

namespace Sys2Proof.Machine

/-- A command with no `w` under KS, KS_VALID leaves the key (R32). -/
theorem Answers.key_eq {i : Instr} {s u : State} {sts : Status} {res rdata : Bytes} (h : Answers i s sts res rdata u)
    (hi : writesKey i = false) : u.ks = s.ks ∧ u.ksValid = s.ksValid := by
  rcases h.key with hkey | ⟨k, rfl, _⟩ | ⟨rfl, _⟩
  · exact hkey
  · cases hi
  · cases hi

/-- Settles O11: an error writes FATAL and LAST_ERR only, and an answer without error what its command's row has a `w` for. -/
theorem commandsWriteOnlyTheirColumns : Obligations.CommandsWriteOnlyTheirColumns := by
  intro i s t ht
  rcases exec_ends ht with ⟨e, he, rfl⟩ | ⟨sts, res, rdata, u, rfl, ha⟩
  · refine ⟨fun _ => ⟨rfl, fun _ => rfl⟩, fun _ => ⟨rfl, rfl⟩, rfl, _, raise_outbox e s, fun h => ?_⟩
    exact absurd (he.symm.trans h) (by decide)
  · refine ⟨fun hi => ?_, ha.key_eq, ha.inbox, ⟨sts, flagsByte u, res, rdata⟩, ?_, fun _ => ⟨ha.fatal, ha.lastErr⟩⟩
    · rw [respond_fb, ha.fb hi]
      exact ⟨rfl, fun _ => rfl⟩
    · rw [respond_outbox, ha.outbox]

end Sys2Proof.Machine
end

section
/-! What shows of the session key (10_state R23, R25): the relation between two states that differ in the bytes of KS alone,
kept by every operation over the state and by every command that does not name slot SESSION. -/

namespace Sys2Proof.Machine

/-- A command that does not name slot SESSION names another slot, or none (R81). -/
theorem ne_session_of_not_usesSession {i : Instr} {k : KeySlot} (hi : ¬ usesSession i) (hk : i.ksel = k.ksel) :
    k ≠ .session :=
  fun h => hi (hk.trans (congrArg KeySlot.ksel h))

/-- A slot other than SESSION holds the same key in every state (R23). -/
theorem slotKey_eq_of_ne_session {k : KeySlot} (hk : k ≠ .session) (c : Config) (s s' : State) :
    slotKey c k s' = slotKey c k s := by
  cases k with
  | session => exact absurd rfl hk
  | master | visit | none => rfl

/-- `s'` is `s` but for the bytes of KS, of which it has as many. -/
def DifferInKeyBytes (s s' : State) : Prop := ∃ k, s' = { s with ks := k } ∧ k.length = s.ks.length

namespace DifferInKeyBytes

section
variable {s s' : State} (h : DifferInKeyBytes s s')
include h

theorem fb_eq : s'.fb = s.fb := by obtain ⟨k, rfl, _⟩ := h; rfl

theorem ksValid_eq : s'.ksValid = s.ksValid := by obtain ⟨k, rfl, _⟩ := h; rfl

theorem fatal_eq : s'.fatal = s.fatal := by obtain ⟨k, rfl, _⟩ := h; rfl

theorem setFb (b : Bytes) : DifferInKeyBytes (s.setFb b) (s'.setFb b) := by
  obtain ⟨k, rfl, hk⟩ := h; exact ⟨k, rfl, hk⟩

theorem setKey (k : Bytes) (v : Bool) : DifferInKeyBytes (s.setKey k v) (s'.setKey k v) := by
  obtain ⟨_, rfl, _⟩ := h; exact ⟨k, rfl, rfl⟩

theorem respond (sts : Status) (res rdata : Bytes) :
    DifferInKeyBytes (respond sts res rdata s) (respond sts res rdata s') := by
  obtain ⟨k, rfl, hk⟩ := h; exact ⟨k, rfl, hk⟩

theorem raise (e : Status) : DifferInKeyBytes (raise e s) (raise e s') := by
  obtain ⟨k, rfl, hk⟩ := h; exact ⟨k, rfl, hk⟩

/-- Of KS the STAT image shows only the length (R25, R28). -/
theorem statImage_eq : statImage s' = statImage s := by
  obtain ⟨k, rfl, hk⟩ := h
  simp only [statImage, hk, flagsByte]

theorem ecbEncCmd {k : CipherSlot} (hk : k.slot ≠ .session) (c : Config) (p : Bytes) :
    DifferInKeyBytes (ecbEncCmd c k p s) (ecbEncCmd c k p s') := by
  simp only [Machine.ecbEncCmd, cipherKey, slotKey_eq_of_ne_session hk c s s']
  split
  · exact h.raise _
  · exact h.respond _ _ _

theorem ecbDecCmd {k : CipherSlot} (hk : k.slot ≠ .session) (c : Config) (ct : Bytes) :
    DifferInKeyBytes (ecbDecCmd c k ct s) (ecbDecCmd c k ct s') := by
  simp only [Machine.ecbDecCmd, cipherKey, slotKey_eq_of_ne_session hk c s s']
  split
  · exact h.raise _
  · split
    · exact h.raise _
    · split
      · exact h.raise _
      · exact h.respond _ _ _

theorem hdrEncCmd (c : Config) (v : VersionSel) (d : Hdesc) : DifferInKeyBytes (hdrEncCmd c v d s) (hdrEncCmd c v d s') := by
  unfold Machine.hdrEncCmd
  split
  · exact h.raise _
  · exact h.respond _ _ _

theorem frmEncCmd {k : SignSlot} (hk : k.slot ≠ .session) (c : Config) (v : VersionSel) (d : Hdesc) (p : Bytes) :
    DifferInKeyBytes (frmEncCmd c k v d p s) (frmEncCmd c k v d p s') := by
  simp only [Machine.frmEncCmd, signKey, slotKey_eq_of_ne_session hk c s s']
  split
  · exact h.raise _
  · split
    · exact h.raise _
    · exact h.respond _ _ _

theorem frmDecCmd (d : Bytes) : DifferInKeyBytes (frmDecCmd d s) (frmDecCmd d s') := by
  unfold Machine.frmDecCmd
  split
  · exact h.respond _ _ _
  · exact h.raise _

theorem sigGenCmd {k : SignSlot} (hk : k.slot ≠ .session) (c : Config) (d : Bytes) :
    DifferInKeyBytes (sigGenCmd c k d s) (sigGenCmd c k d s') := by
  simp only [Machine.sigGenCmd, signKey, slotKey_eq_of_ne_session hk c s s']
  split
  · exact h.raise _
  · exact h.respond _ _ _

theorem sigChkCmd {k : SignSlot} (hk : k.slot ≠ .session) (c : Config) (d : Bytes) :
    DifferInKeyBytes (sigChkCmd c k d s) (sigChkCmd c k d s') := by
  simp only [Machine.sigChkCmd, signKey, slotKey_eq_of_ne_session hk c s s']
  split
  · exact h.raise _
  · split
    · exact h.respond _ _ _
    · exact h.raise _

theorem frPopCmd (c : Config) : DifferInKeyBytes (frPopCmd c s) (frPopCmd c s') := by
  simp only [Machine.frPopCmd, h.fb_eq]
  split
  · exact (h.setFb _).respond _ _ _
  · exact (h.setFb _).respond _ _ _

theorem frPushCmd (d : Bytes) : DifferInKeyBytes (frPushCmd d s) (frPushCmd d s') := by
  simp only [Machine.frPushCmd, h.fb_eq]
  split
  · exact h.raise _
  · exact (h.setFb _).respond _ _ _

theorem frFeedCmd (c : Config) (d : Bytes) : DifferInKeyBytes (frFeedCmd c d s) (frFeedCmd c d s') := by
  simp only [Machine.frFeedCmd, h.fb_eq]
  split
  · exact h.raise _
  · exact (h.setFb _).frPopCmd c

theorem frRstCmd : DifferInKeyBytes (frRstCmd s) (frRstCmd s') := (h.setFb []).respond _ _ _

theorem keyLoadCmd (c : Config) (d : Bytes) : DifferInKeyBytes (keyLoadCmd c d s) (keyLoadCmd c d s') := by
  simp only [Machine.keyLoadCmd, h.ksValid_eq]
  split
  · exact h.raise _
  · split
    · exact h.raise _
    · exact (h.setKey d true).respond _ _ _

theorem keyClrCmd : DifferInKeyBytes (keyClrCmd s) (keyClrCmd s') := (h.setKey [] false).respond _ _ _

theorem statRdCmd : DifferInKeyBytes (statRdCmd s) (statRdCmd s') := by
  simp only [Machine.statRdCmd, h.statImage_eq]
  exact h.respond _ _ _

/-- The latch treats both states alike: it refuses both, or neither. -/
theorem underLatch {t t' u : State} (ht : DifferInKeyBytes t t') (hu : underLatch s t = .next u) :
    ∃ u', Machine.underLatch s' t' = .next u' ∧ DifferInKeyBytes u u' := by
  rcases underLatch_cases hu with ⟨hf, rfl⟩ | ⟨hf, rfl⟩
  · exact ⟨_, underLatch_set (h.fatal_eq.trans hf), h.raise _⟩
  · exact ⟨t', underLatch_clear (h.fatal_eq.trans hf), ht⟩

/-- A command that does not name slot SESSION keeps two states together that differ in the bytes of KS alone. -/
theorem exec {i : Instr} (hi : ¬ usesSession i) {t : State} (ht : exec i s = .next t) :
    ∃ t', Machine.exec i s' = .next t' ∧ DifferInKeyBytes t t' := by
  cases i with
  | ecbEnc k p => exact h.underLatch (h.ecbEncCmd (ne_session_of_not_usesSession hi rfl) cfg p) ht
  | ecbDec k ct => exact h.underLatch (h.ecbDecCmd (ne_session_of_not_usesSession hi rfl) cfg ct) ht
  | hdrEnc v d => exact h.underLatch (h.hdrEncCmd cfg v d) ht
  | frmEnc k v d p => exact h.underLatch (h.frmEncCmd (ne_session_of_not_usesSession hi rfl) cfg v d p) ht
  | frmDec d => exact h.underLatch (h.frmDecCmd d) ht
  | sigGen k d => exact h.underLatch (h.sigGenCmd (ne_session_of_not_usesSession hi rfl) cfg d) ht
  | sigChk k d => exact h.underLatch (h.sigChkCmd (ne_session_of_not_usesSession hi rfl) cfg d) ht
  | frPush d => exact h.underLatch (h.frPushCmd d) ht
  | frPop => exact h.underLatch (h.frPopCmd cfg) ht
  | frFeed d => exact h.underLatch (h.frFeedCmd cfg d) ht
  | frRst => exact h.underLatch h.frRstCmd ht
  | keyLoad d => exact h.underLatch (h.keyLoadCmd cfg d) ht
  | keyClr => exact h.underLatch h.keyClrCmd ht
  | statRd => cases ht; exact ⟨_, rfl, h.statRdCmd⟩

end

end DifferInKeyBytes

/-- Settles O41: the two states differ in the bytes of KS alone, before the command and after it; responses included, all
else is the same. -/
theorem sessionKeyBytesAreNotShown : Obligations.SessionKeyBytesAreNotShown := by
  intro i s t k hi hk ht
  have h : DifferInKeyBytes s { s with ks := k } := ⟨k, rfl, hk⟩
  obtain ⟨_, ht', k', rfl, hk'⟩ := h.exec hi ht
  exact ⟨k', ht', hk'⟩

end Sys2Proof.Machine
end

section
/-! A step on a packet that decodes is the command it decodes to (20_memory R58, 60_exceptions R183). -/

namespace Sys2Proof.Machine

/-- Settles O4: the step hands the packet to the port (`step_packet`), and whatever FATAL is the port runs the command
(`takePacket_ok`). -/
theorem stepRunsDecodedCommand : Obligations.StepRunsDecodedCommand := by
  intro s c rest i hq hi
  exact (step_packet hq).trans (takePacket_ok hi _)

end Sys2Proof.Machine
end

section
/-! FB as a first-in first-out queue (20_memory R57, 43_framer R151, R153): an extraction removes a front part of FB, and the
frame it returns is the end of that part. -/

namespace Sys2Proof.Machine

/-- The status answered is the error raised. -/
theorem raise_status {e : Status} {s : State} {r : Response} (h : (raise e s).outbox = s.outbox ++ [r]) : r.sts = e := by
  rw [raise_response h]

/-- A command that does not end with an error was not refused by the latch. -/
theorem underLatch_normal {s t u : State} {r : Response} (h : underLatch s t = .next u) (ho : u.outbox = s.outbox ++ [r])
    (hr : r.sts.isError = false) : u = t := by
  rcases underLatch_cases h with ⟨_, rfl⟩ | ⟨_, rfl⟩
  · rw [raise_status ho] at hr
    cases hr
  · rfl

/-- Of the queued bytes `q` a front part is gone and `fb` is what is left; `frame` is empty or the end of the part gone. -/
def TakenFromFront (q fb frame : Bytes) : Prop :=
  ∃ n ≤ q.length, fb = q.drop n ∧ (frame = [] ∨ ∃ m, m + frame.length = n ∧ frame = slice q m n)

theorem TakenFromFront.nothing (q : Bytes) : TakenFromFront q q [] := ⟨0, Nat.zero_le _, rfl, .inl rfl⟩

/-- A waiting extraction removes what it has passed over, and one that returns a frame removes up to the frame's end. -/
theorem extract_takenFromFront (c : Config) (q : Bytes) :
    TakenFromFront q (extract c q).fb ((extract c q).frame.getD []) := by
  obtain ⟨i, hi, _, ⟨_, e⟩ | ⟨_, _, e⟩ | ⟨_, hl, e⟩⟩ := extract_spec c q <;> rw [e]
  · exact ⟨i, hi, rfl, .inl rfl⟩
  · exact ⟨i, hi, rfl, .inl rfl⟩
  · generalize totalLength (q.drop i) = n at hl
    exact ⟨i + n, by omega, List.drop_drop, .inr ⟨i, by simp; omega, by simp [slice]⟩⟩

/-- An extracting command leaves the extraction's FB, and its response carries the frame, or nothing. -/
theorem frPopCmd_response (c : Config) (s : State) : ∃ sts res, (frPopCmd c s).fb = (extract c s.fb).fb ∧
    (frPopCmd c s).outbox = s.outbox ++ [⟨sts, flagsByte s, res, (extract c s.fb).frame.getD []⟩] := by
  simp only [frPopCmd]
  cases (extract c s.fb).frame with
  | none => exact ⟨_, _, rfl, rfl⟩
  | some f => exact ⟨_, _, rfl, rfl⟩

theorem frPopCmd_takenFromFront {c : Config} {s : State} {r : Response} (ho : (frPopCmd c s).outbox = s.outbox ++ [r]) :
    TakenFromFront s.fb (frPopCmd c s).fb r.rdata := by
  obtain ⟨sts, res, hfb, hout⟩ := frPopCmd_response c s
  rw [hfb, ← outbox_last_inj (hout.symm.trans ho)]
  exact extract_takenFromFront c s.fb

/-- FR.PUSH without an overflow queues its data and takes nothing (R151). -/
theorem frPushCmd_takenFromFront {d : Bytes} {s : State} {r : Response} (ho : (frPushCmd d s).outbox = s.outbox ++ [r])
    (hr : r.sts.isError = false) : TakenFromFront (s.fb ++ d) (frPushCmd d s).fb r.rdata := by
  unfold frPushCmd at ho ⊢
  split at ho
  · rw [raise_status ho] at hr
    cases hr
  · rename_i fb hfb
    obtain ⟨_, rfl⟩ := Memory.append_some hfb
    rw [respond_response rfl ho]
    exact .nothing _

/-- FR.FEED without an overflow queues its data and extracts (R158). -/
theorem frFeedCmd_takenFromFront {c : Config} {d : Bytes} {s : State} {r : Response}
    (ho : (frFeedCmd c d s).outbox = s.outbox ++ [r]) (hr : r.sts.isError = false) :
    TakenFromFront (s.fb ++ d) (frFeedCmd c d s).fb r.rdata := by
  unfold frFeedCmd at ho ⊢
  split at ho
  · rw [raise_status ho] at hr
    cases hr
  · rename_i fb hfb
    obtain ⟨_, rfl⟩ := Memory.append_some hfb
    exact frPopCmd_takenFromFront ho

/-- Settles O34: without an error the latch has not refused the command, and each of the three takes what it takes from the
front of FB with `d` queued behind it. -/
theorem framerBufferIsFifo : Obligations.FramerBufferIsFifo := by
  intro i d s t r hi ht ho hr
  change TakenFromFront (s.fb ++ d) t.fb r.rdata
  rcases hi with rfl | rfl | ⟨rfl, rfl⟩ <;> obtain rfl := underLatch_normal ht ho hr
  · exact frPushCmd_takenFromFront ho hr
  · exact frFeedCmd_takenFromFront ho hr
  · rw [List.append_nil]
    exact frPopCmd_takenFromFront ho

end Sys2Proof.Machine
end

section
/-! Repeating a command (20_memory R56). The one thing a command without a `w` under FB and the key leaves behind when it ends
with OK is its response, and no command reads the responses delivered before it (log 2). -/

namespace Sys2Proof.Machine

/-- By one and the same response, `t` is reached with the responses `l` already delivered and `t'` with `l'`; in all else
`t'` is `t`. -/
def AnswersAlike (l l' : List Response) (t t' : State) : Prop :=
  ∃ r, t.outbox = l ++ [r] ∧ t' = { t with outbox := l' ++ [r] }

namespace AnswersAlike

section
variable (s : State) (l : List Response)

theorem respond (sts : Status) (res rdata : Bytes) :
    AnswersAlike s.outbox l (respond sts res rdata s) (respond sts res rdata { s with outbox := l }) := ⟨_, rfl, rfl⟩

theorem raise (e : Status) : AnswersAlike s.outbox l (raise e s) (raise e { s with outbox := l }) := ⟨_, rfl, rfl⟩

/-- A key slot's key does not depend on the responses. -/
theorem slotKey_eq (c : Config) (k : KeySlot) : slotKey c k { s with outbox := l } = slotKey c k s := rfl

theorem ecbEncCmd (c : Config) (k : CipherSlot) (p : Bytes) :
    AnswersAlike s.outbox l (ecbEncCmd c k p s) (ecbEncCmd c k p { s with outbox := l }) := by
  simp only [Machine.ecbEncCmd, cipherKey, slotKey_eq]
  split
  · exact raise s l _
  · exact respond s l _ _ _

theorem ecbDecCmd (c : Config) (k : CipherSlot) (ct : Bytes) :
    AnswersAlike s.outbox l (ecbDecCmd c k ct s) (ecbDecCmd c k ct { s with outbox := l }) := by
  simp only [Machine.ecbDecCmd, cipherKey, slotKey_eq]
  split
  · exact raise s l _
  · split
    · exact raise s l _
    · split
      · exact raise s l _
      · exact respond s l _ _ _

theorem hdrEncCmd (c : Config) (v : VersionSel) (d : Hdesc) :
    AnswersAlike s.outbox l (hdrEncCmd c v d s) (hdrEncCmd c v d { s with outbox := l }) := by
  unfold Machine.hdrEncCmd
  split
  · exact raise s l _
  · exact respond s l _ _ _

theorem frmEncCmd (c : Config) (k : SignSlot) (v : VersionSel) (d : Hdesc) (p : Bytes) :
    AnswersAlike s.outbox l (frmEncCmd c k v d p s) (frmEncCmd c k v d p { s with outbox := l }) := by
  simp only [Machine.frmEncCmd, signKey, slotKey_eq]
  split
  · exact raise s l _
  · split
    · exact raise s l _
    · exact respond s l _ _ _

theorem frmDecCmd (d : Bytes) : AnswersAlike s.outbox l (frmDecCmd d s) (frmDecCmd d { s with outbox := l }) := by
  unfold Machine.frmDecCmd
  split
  · exact respond s l _ _ _
  · exact raise s l _

theorem sigGenCmd (c : Config) (k : SignSlot) (d : Bytes) :
    AnswersAlike s.outbox l (sigGenCmd c k d s) (sigGenCmd c k d { s with outbox := l }) := by
  simp only [Machine.sigGenCmd, signKey, slotKey_eq]
  split
  · exact raise s l _
  · exact respond s l _ _ _

theorem sigChkCmd (c : Config) (k : SignSlot) (d : Bytes) :
    AnswersAlike s.outbox l (sigChkCmd c k d s) (sigChkCmd c k d { s with outbox := l }) := by
  simp only [Machine.sigChkCmd, signKey, slotKey_eq]
  split
  · exact raise s l _
  · split
    · exact respond s l _ _ _
    · exact raise s l _

theorem frPopCmd (c : Config) : AnswersAlike s.outbox l (frPopCmd c s) (frPopCmd c { s with outbox := l }) := by
  simp only [Machine.frPopCmd]
  split
  · exact respond (s.setFb _) l _ _ _
  · exact respond (s.setFb _) l _ _ _

theorem frPushCmd (d : Bytes) : AnswersAlike s.outbox l (frPushCmd d s) (frPushCmd d { s with outbox := l }) := by
  simp only [Machine.frPushCmd]
  split
  · exact raise s l _
  · exact respond (s.setFb _) l _ _ _

theorem frFeedCmd (c : Config) (d : Bytes) :
    AnswersAlike s.outbox l (frFeedCmd c d s) (frFeedCmd c d { s with outbox := l }) := by
  simp only [Machine.frFeedCmd]
  split
  · exact raise s l _
  · exact frPopCmd (s.setFb _) l c

theorem keyLoadCmd (c : Config) (k : Bytes) :
    AnswersAlike s.outbox l (keyLoadCmd c k s) (keyLoadCmd c k { s with outbox := l }) := by
  simp only [Machine.keyLoadCmd]
  split
  · exact raise s l _
  · split
    · exact raise s l _
    · exact respond (s.setKey k true) l _ _ _

theorem frRstCmd : AnswersAlike s.outbox l (frRstCmd s) (frRstCmd { s with outbox := l }) :=
  respond (s.setFb []) l .ok [] []

theorem keyClrCmd : AnswersAlike s.outbox l (keyClrCmd s) (keyClrCmd { s with outbox := l }) :=
  respond (s.setKey [] false) l .ok [] []

theorem statRdCmd : AnswersAlike s.outbox l (statRdCmd s) (statRdCmd { s with outbox := l }) :=
  respond s l .ok (statImage s) []

/-- The latch treats both states alike: it refuses both, or neither. -/
theorem underLatch {s : State} {l : List Response} {t t' u : State} (h : AnswersAlike s.outbox l t t')
    (hu : Machine.underLatch s t = .next u) :
    ∃ u', Machine.underLatch { s with outbox := l } t' = .next u' ∧ AnswersAlike s.outbox l u u' := by
  rcases underLatch_cases hu with ⟨hf, rfl⟩ | ⟨hf, rfl⟩
  · exact ⟨_, underLatch_set hf, raise s l _⟩
  · exact ⟨t', underLatch_clear hf, h⟩

/-- A command's answer does not depend on the responses delivered before. -/
theorem exec {i : Instr} {t : State} (ht : Machine.exec i s = .next t) :
    ∃ t', Machine.exec i { s with outbox := l } = .next t' ∧ AnswersAlike s.outbox l t t' := by
  cases i with
  | ecbEnc k p => exact (ecbEncCmd s l cfg k p).underLatch ht
  | ecbDec k ct => exact (ecbDecCmd s l cfg k ct).underLatch ht
  | hdrEnc v d => exact (hdrEncCmd s l cfg v d).underLatch ht
  | frmEnc k v d p => exact (frmEncCmd s l cfg k v d p).underLatch ht
  | frmDec d => exact (frmDecCmd s l d).underLatch ht
  | sigGen k d => exact (sigGenCmd s l cfg k d).underLatch ht
  | sigChk k d => exact (sigChkCmd s l cfg k d).underLatch ht
  | frPush d => exact (frPushCmd s l d).underLatch ht
  | frPop => exact (frPopCmd s l cfg).underLatch ht
  | frFeed d => exact (frFeedCmd s l cfg d).underLatch ht
  | frRst => exact (frRstCmd s l).underLatch ht
  | keyLoad k => exact (keyLoadCmd s l cfg k).underLatch ht
  | keyClr => exact (keyClrCmd s l).underLatch ht
  | statRd => cases ht; exact ⟨_, rfl, statRdCmd s l⟩

end

end AnswersAlike

/-- A command that answers `r` answers `r` and does the same whatever responses `l` were delivered before. -/
theorem exec_of_outbox {i : Instr} {s t : State} {r : Response} (ht : exec i s = .next t) (ho : t.outbox = s.outbox ++ [r])
    (l : List Response) : exec i { s with outbox := l } = .next { t with outbox := l ++ [r] } := by
  obtain ⟨_, ht', r', ho', rfl⟩ := AnswersAlike.exec s l ht
  rwa [outbox_last_inj (ho.symm.trans ho')]

/-- A command with no `w` under FB and the key that ends without an error leaves nothing behind but its response. -/
theorem exec_pure {i : Instr} {s t : State} {r : Response} (hf : writesFb i = false) (hk : writesKey i = false)
    (ht : exec i s = .next t) (ho : t.outbox = s.outbox ++ [r]) (hr : r.sts.isError = false) :
    t = { s with outbox := t.outbox } := by
  rcases exec_ends ht with ⟨e, he, rfl⟩ | ⟨sts, res, rdata, u, rfl, ha⟩
  · rw [raise_status ho] at hr
    exact absurd (he.symm.trans hr) (by decide)
  · obtain rfl := ha.state_eq hf hk
    rfl

theorem exec_repeat {i : Instr} {s t : State} {r : Response} (hf : writesFb i = false) (hk : writesKey i = false)
    (ht : exec i s = .next t) (ho : t.outbox = s.outbox ++ [r]) (hr : r.sts.isError = false) :
    exec i t = .next { t with outbox := t.outbox ++ [r] } :=
  calc exec i t = exec i { s with outbox := t.outbox } := by rw [← exec_pure hf hk ht ho hr]
    _ = .next { t with outbox := t.outbox ++ [r] } := exec_of_outbox ht ho t.outbox

theorem exec_frRst {s : State} (hf : s.fatal = false) : exec .frRst s = .next (frRstCmd s) := underLatch_clear hf

theorem exec_keyClr {s : State} (hf : s.fatal = false) : exec .keyClr s = .next (keyClrCmd s) := underLatch_clear hf

theorem exec_keyLoad_free {k : Bytes} {s : State} (hf : s.fatal = false) (hv : s.ksValid = false)
    (hk : k.length ∈ cfg.params.keyLens) : exec (.keyLoad k) s = .next (respond .ok [] [] (s.setKey k true)) := by
  have hcmd : keyLoadCmd cfg k s = respond .ok [] [] (s.setKey k true) := by simp [keyLoadCmd, hv, hk]
  exact (underLatch_clear hf).trans (congrArg _ hcmd)

theorem exec_keyLoad_locked (k : Bytes) {s : State} (hf : s.fatal = false) (hv : s.ksValid = true) :
    exec (.keyLoad k) s = .next (raise .keyLocked s) := by
  have hcmd : keyLoadCmd cfg k s = raise .keyLocked s := by simp [keyLoadCmd, hv]
  exact (underLatch_clear hf).trans (congrArg _ hcmd)

/-- Settles O12: a command that writes neither FB nor the key is run again in a state that differs in its responses alone;
FR.RST and KEY.CLR find FB and the key already as they leave them; and a loaded key locks out the next. -/
theorem repeatingCommands : Obligations.RepeatingCommands := by
  refine ⟨fun i s t u r hf hk ht ho hr hu => ?_, fun s t u hs ht hu => ?_, fun s t u hs ht hu => ?_,
    fun k k' s t hs hv hk ht => ?_⟩
  · rw [exec_repeat hf hk ht ho (hr ▸ rfl)] at hu
    cases hu; rfl
  · rw [exec_frRst hs] at ht
    cases ht
    rw [exec_frRst (s := frRstCmd s) hs] at hu
    cases hu; rfl
  · rw [exec_keyClr hs] at ht
    cases ht
    rw [exec_keyClr (s := keyClrCmd s) hs] at hu
    cases hu; rfl
  · rw [exec_keyLoad_free hs hv hk] at ht
    cases ht
    exact exec_keyLoad_locked k' hs rfl

end Sys2Proof.Machine
end

section
/-! Decoding and encoding are inverse to each other (30_encoding R80 to R89): the checks of `decode_cmd` accept the fields of an
encoded command, and a packet that decodes is rebuilt from its fields. -/

namespace Sys2Proof

/-- The model's two readings of R83's DLEN column agree. -/
theorem Instr.maxDlen_eq_dlenColumn (i : Instr) : i.maxDlen = Machine.dlenColumn i.opcode := by cases i <;> rfl

/-- `DLEN` is 16 bits wide, and no row of R83 admits more. -/
theorem dlenColumn_le (op : Opcode) : Machine.dlenColumn op ≤ 65535 := by cases op <;> decide

/-- A well-formed command's data is within its row's DLEN (R83). -/
theorem Instr.data_length_le {i : Instr} (h : i.wellFormed = true) : i.data.length ≤ i.maxDlen := by
  simp only [Instr.wellFormed, Bool.and_eq_true, decide_eq_true_eq] at h
  exact h.1

/-- The data of a well-formed command can be counted by the 16 bits of `DLEN` (R80, R83). -/
theorem Instr.data_length_le_maxData {i : Instr} (h : i.wellFormed = true) : i.data.length ≤ 65535 :=
  (Instr.data_length_le h).trans (i.maxDlen_eq_dlenColumn ▸ dlenColumn_le i.opcode)

/-- The length field of a packet is the little-endian bytes of `DLEN` (R80). -/
theorem slice_two_four_eq {c : Bytes} (h : 4 ≤ c.length) : slice c 2 4 = natBytes16 (dlenOf c) := by
  obtain ⟨a, b, e⟩ := List.length_eq_two.mp (slice_length (i := 2) h)
  rw [dlenOf, e, natBytes16, BitVec.ofNat_toNat, BitVec.setWidth_eq, le16bytes_le16]

/-- The DATA of the command a packet decodes to has length `DLEN` (R80). -/
theorem decodeCmd_data_length {c : Bytes} {i : Instr} (h : decodeCmd c = .ok i) : i.data.length = dlenOf c := by
  obtain ⟨_, _, hlen, _, _, _, _, hdata, _⟩ := decodeCmd_parts h
  rw [hdata, List.length_drop]
  omega

/-- Settles O46: the packet passes the checks on its layout, its fields are those of the command, and the last checks accept
the parts of a well-formed command (`decodeBody_parts`). -/
theorem decodeOfEncode : Obligations.DecodeOfEncode := by
  intro i hi
  have hdlen : dlenOf (encode i) = i.data.length := encode_dlen i (Instr.data_length_le_maxData hi)
  obtain ⟨hksel, hvsel, hres⟩ := modByte_fields i.ksel i.vsel
  have hbody := decodeCmd_of_checks (c := encode i) (by rw [encode_length]; omega) (encode_byte0 i)
    (by rw [hdlen, encode_length]) hres
  rw [hbody, encode_byte1, hksel, hvsel, encode_arg, encode_data]
  exact decodeBody_parts hi

/-- Settles O47: a packet is the row of its fields (`packet_eq_parts`), and each field is that of the command. -/
theorem encodeOfDecode : Obligations.EncodeOfDecode := by
  intro c i h
  obtain ⟨h4, hopc, hlen, hres, hksel, hvsel, harg, hdata, hwf⟩ := decodeCmd_parts h
  refine ⟨?_, hwf⟩
  have hmod : modByte i.ksel i.vsel = byteAt c 1 := by rw [hksel, hvsel, modByte_of_fields _ hres]
  rw [packet_eq_parts (c := c) (n := i.opcode.argLen) (by omega), encode, hmod, ← hopc, decodeCmd_data_length h,
    ← slice_two_four_eq h4, ← harg, ← hdata]

end Sys2Proof
end

section
/-! The rows of the opcode table (30_encoding R86): a row looks at the whole opcode byte, so no two rows select one packet. -/

namespace Sys2Proof

/-- Every mask covers the whole of the first byte (R86). -/
theorem Opcode.tableMask_low (op : Opcode) : op.tableMask.extractLsb' 0 8 = BitVec.allOnes 8 := by cases op <;> decide

/-- The first byte of every match is the opcode (R86). -/
theorem Opcode.tableMatch_low (op : Opcode) : op.tableMatch.extractLsb' 0 8 = op.code := by cases op <;> decide

/-- A row selects only words whose first byte is its opcode (R86). -/
theorem Opcode.code_of_selects {op : Opcode} {w : U32} (h : op.selects w = true) : w.extractLsb' 0 8 = op.code := by
  have hw : w &&& op.tableMask = op.tableMatch := beq_iff_eq.mp h
  rw [← op.tableMatch_low, ← hw, BitVec.extractLsb'_and, op.tableMask_low, BitVec.and_allOnes]

/-- The first byte of a command's packet word is its opcode (R86). -/
theorem packetWord_encode_low (i : Instr) : (packetWord (encode i)).extractLsb' 0 8 = i.opcode.code := by
  rw [packetWord_encode, le32]
  exact BitVec.extractLsb'_append_eq_right

/-- The packet of every command selects the command's row (R86). -/
theorem selects_packetWord_encode (i : Instr) : i.opcode.selects (packetWord (encode i)) = true :=
  match i with
  | .ecbEnc k d => Laws.SelectsRow.ecbEnc k d
  | .ecbDec k d => Laws.SelectsRow.ecbDec k d
  | .hdrEnc v h => Laws.SelectsRow.hdrEnc v h
  | .frmEnc k v h d => Laws.SelectsRow.frmEnc k v h d
  | .frmDec d => Laws.SelectsRow.frmDec d
  | .sigGen k d => Laws.SelectsRow.sigGen k d
  | .sigChk k d => Laws.SelectsRow.sigChk k d
  | .frPush d => Laws.SelectsRow.frPush d
  | .frPop => Laws.SelectsRow.frPop
  | .frFeed d => Laws.SelectsRow.frFeed d
  | .frRst => Laws.SelectsRow.frRst
  | .keyLoad d => Laws.SelectsRow.keyLoad d
  | .keyClr => Laws.SelectsRow.keyClr
  | .statRd => Laws.SelectsRow.statRd

/-- Settles O48: the packet is the command's own, which selects the command's row; and a row that selects it has its opcode. -/
theorem decodedPacketSelectsOneRow : Obligations.DecodedPacketSelectsOneRow := by
  intro c i h op
  obtain ⟨rfl, _⟩ := encodeOfDecode c i h
  constructor
  · intro hsel
    exact Opcode.code_injective ((Opcode.code_of_selects hsel).symm.trans (packetWord_encode_low i))
  · rintro rfl
    exact selects_packetWord_encode i

/-- Settles O49: `decodeCmd` computes on bytes written out. -/
theorem samplePacketsDecode : Obligations.SamplePacketsDecode :=
  ⟨rfl, rfl, rfl, rfl, rfl, rfl, rfl, rfl, rfl⟩

end Sys2Proof
end

section
/-! Legal packets (30_encoding R80 to R83, R87) are those that decode: the checks of `decode_cmd` against the columns of R83. -/

namespace Sys2Proof

open Machine

/-- The `KSEL` column of the cipher commands is the slots they admit (R83). -/
theorem mem_kselColumn_cipher {ks : BitVec 2} : ks ∈ kselColumn .ecbEnc ↔ ∃ k : CipherSlot, k.slot.ksel = ks := by
  constructor
  · intro h
    fin_cases h
    · exact ⟨.master, rfl⟩
    · exact ⟨.visit, rfl⟩
    · exact ⟨.session, rfl⟩
  · rintro ⟨k, rfl⟩
    cases k <;> decide

/-- The `KSEL` column of the signing commands is the slots they admit (R83). -/
theorem mem_kselColumn_sign {ks : BitVec 2} : ks ∈ kselColumn .frmEnc ↔ ∃ k : SignSlot, k.slot.ksel = ks := by
  constructor
  · intro h
    fin_cases h
    · exact ⟨.session, rfl⟩
    · exact ⟨.none, rfl⟩
  · rintro ⟨k, rfl⟩
    cases k <;> decide

/-- A command that uses `VSEL` admits both its values (R81, R83). -/
theorem mem_vselColumn_frmEnc : ∀ v : BitVec 1, v ∈ vselColumn .frmEnc := by decide

/-- The last checks of `decode_cmd` accept what the columns of R83 admit, with `PLEN = DLEN` for FRM.ENC (R87, R89). -/
theorem decodeBody_of_columns {op : Opcode} {ks : BitVec 2} {vs : BitVec 1} {arg data : Bytes} (hk : ks ∈ kselColumn op)
    (hv : vs ∈ vselColumn op) (hd : data.length ≤ dlenColumn op)
    (hp : op = .frmEnc → (le16 (slice arg 0 2)).toNat = data.length) : ∃ i, decodeBody op ks vs arg data = .ok i := by
  cases op with
  | ecbEnc =>
    obtain ⟨k, rfl⟩ := mem_kselColumn_cipher.mp hk
    obtain rfl := List.mem_singleton.mp hv
    exact ⟨_, (withCipherSlot_ksel k _).trans (needDlen_fits hd)⟩
  | ecbDec =>
    obtain ⟨k, rfl⟩ := mem_kselColumn_cipher.mp hk
    obtain rfl := List.mem_singleton.mp hv
    exact ⟨_, withCipherSlot_ksel k _⟩
  | sigGen | sigChk =>
    obtain ⟨k, rfl⟩ := mem_kselColumn_sign.mp hk
    obtain rfl := List.mem_singleton.mp hv
    exact ⟨_, withSignSlot_ksel k _⟩
  | frmEnc =>
    obtain ⟨k, rfl⟩ := mem_kselColumn_sign.mp hk
    exact ⟨_, (withSignSlot_ksel k _).trans (if_neg (not_not.mpr (hp rfl)))⟩
  | hdrEnc =>
    obtain rfl := List.mem_singleton.mp hk
    exact ⟨_, needDlen_fits hd⟩
  | frmDec | frPush | frFeed | keyLoad =>
    obtain rfl := List.mem_singleton.mp hk
    obtain rfl := List.mem_singleton.mp hv
    exact ⟨_, rfl⟩
  | frPop | frRst | keyClr | statRd =>
    obtain rfl := List.mem_singleton.mp hk
    obtain rfl := List.mem_singleton.mp hv
    exact ⟨_, needDlen_fits hd⟩

/-- The selectors of every command are in its columns of R83. -/
theorem Instr.selectors_mem_columns (i : Instr) : i.ksel ∈ kselColumn i.opcode ∧ i.vsel ∈ vselColumn i.opcode := by
  cases i with
  | ecbEnc k _ | ecbDec k _ => exact ⟨mem_kselColumn_cipher.mpr ⟨k, rfl⟩, List.mem_singleton.mpr rfl⟩
  | sigGen k _ | sigChk k _ => exact ⟨mem_kselColumn_sign.mpr ⟨k, rfl⟩, List.mem_singleton.mpr rfl⟩
  | frmEnc k v _ _ => exact ⟨mem_kselColumn_sign.mpr ⟨k, rfl⟩, mem_vselColumn_frmEnc v.vsel⟩
  | hdrEnc v _ => exact ⟨List.mem_singleton.mpr rfl, mem_vselColumn_frmEnc v.vsel⟩
  | frmDec _ | frPush _ | frPop | frFeed _ | frRst | keyLoad _ | keyClr | statRd =>
    exact ⟨List.mem_singleton.mpr rfl, List.mem_singleton.mpr rfl⟩

/-- The first argument field of a well-formed FRM.ENC is the length of its data (R82, R87). -/
theorem Instr.plen_of_wellFormed {i : Instr} (h : i.wellFormed = true) (hi : i.opcode = .frmEnc) :
    (le16 (slice i.arg 0 2)).toNat = i.data.length := by
  have hplen : i.plenAgrees = true := ((Bool.and_eq_true _ _).mp h).2
  cases i with
  | frmEnc k v hd d =>
    have hfield : slice (Instr.frmEnc k v hd d).arg 0 2 = le16bytes hd.plen := rfl
    rw [hfield, le16_le16bytes]
    exact beq_iff_eq.mp hplen
  | _ => cases hi

/-- The front part of a slice is a slice with the same start. -/
theorem slice_slice_zero {b : Bytes} {i j k : Nat} (h : i + k ≤ j) : slice (slice b i j) 0 k = slice b i (i + k) := by
  rw [slice_zero, slice, slice, List.take_take, Nat.add_sub_cancel_left, Nat.min_eq_left (by omega)]

/-- A byte string is a legal packet exactly when it decodes (R83, R87, R89). -/
theorem legalPacket_iff {c : Bytes} : legalPacket c ↔ ∃ i, decodeCmd c = .ok i := by
  constructor
  · rintro ⟨op, h4, hopc, hlen, hres, hk, hv, hd, hp⟩
    rw [decodeCmd_of_checks h4 hopc hlen hres]
    have hdata : (c.drop (4 + op.argLen)).length = dlenOf c := by rw [List.length_drop]; omega
    refine decodeBody_of_columns hk hv (hdata ▸ hd) fun hop => ?_
    subst hop
    rw [hdata, slice_slice_zero (by decide)]
    exact hp rfl
  · rintro ⟨i, h⟩
    obtain ⟨h4, hopc, hlen, hres, hksel, hvsel, harg, _, hwf⟩ := decodeCmd_parts h
    obtain ⟨hk, hv⟩ := i.selectors_mem_columns
    have hdlen := decodeCmd_data_length h
    refine ⟨i.opcode, h4, hopc, hlen, hres, hksel ▸ hk, hvsel ▸ hv, ?_, fun hi => ?_⟩
    · rw [← hdlen, ← i.maxDlen_eq_dlenColumn]
      exact Instr.data_length_le hwf
    · have hplen := Instr.plen_of_wellFormed hwf hi
      rwa [harg, hi, slice_slice_zero (by decide), hdlen] at hplen

/-- An error that is no fatal one leaves its code and an empty response, and changes nothing else (R184, R186). -/
theorem raise_of_not_fatal {e : Status} (he : e.isFatal = false) (s : State) :
    raise e s = { s with lastErr := e.code, outbox := s.outbox ++ [⟨e, flagsByte s, [], []⟩] } := by
  rw [raise, he, Bool.or_false]
  rfl

/-- Settles O5: a legal packet decodes (`legalPacket_iff`) and is run; any other has an `Illegal` for its decoding, and with
the latch clear the port raises `E_ILLEGAL`. -/
theorem packetIsRunOrIllegal : Obligations.PacketIsRunOrIllegal := by
  intro s c rest hq hf
  refine ⟨fun hc => ?_, fun hc => ?_⟩
  · obtain ⟨i, hi⟩ := legalPacket_iff.mp hc
    exact ⟨i, hi, stepRunsDecodedCommand s c rest i hq hi⟩
  · have hraise : step s = .next (raise .illegal (s.setInbox rest)) := by
      cases hd : decodeCmd c with
      | error e => exact (step_packet hq).trans (takePacket_error hd (.inl hf))
      | ok i => exact absurd (legalPacket_iff.mpr ⟨i, hd⟩) hc
    exact ⟨_, hraise, raise_of_not_fatal rfl _⟩

end Sys2Proof
end

section
/-! Responses (30_encoding R84): the bytes of one, and that every response delivered fits its packet. -/

namespace Sys2Proof.Machine

/-- `FLAGS` bit by bit (R28). -/
theorem flagsByte_getLsbD (s : State) (n : Nat) :
    (flagsByte s).getLsbD n = match n with
      | 0 => s.ksValid
      | 1 => s.fatal
      | _ + 2 => false := by
  have happend : (flagsByte s).getLsbD n = if n < 1 then (BitVec.ofBool s.ksValid).getLsbD n
      else ((0 : BitVec 6) ++ BitVec.ofBool s.fatal).getLsbD (n - 1) := BitVec.getLsbD_append
  rw [happend, BitVec.getLsbD_append]
  match n with
  | 0 | 1 | _ + 2 => simp

/-- The fields of a response at their offsets, the data to the end (R84). -/
theorem Response.bytes_fields {r : Response} (h : r.rdata.length ≤ 65535) :
    byteAt r.bytes 0 = r.sts.code ∧ byteAt r.bytes 1 = r.flg ∧ (le16 (slice r.bytes 2 4)).toNat = r.rdata.length ∧
    slice r.bytes 4 (4 + r.res.length) = r.res ∧ r.bytes.drop (4 + r.res.length) = r.rdata := by
  have hlen : slice r.bytes 2 4 = natBytes16 r.rdata.length := rfl
  have hbody : r.bytes.drop 4 = r.res ++ r.rdata := rfl
  refine ⟨rfl, rfl, ?_, ?_, ?_⟩
  · rw [hlen, le16_natBytes16 (by omega)]
  · rw [slice, hbody, Nat.add_sub_cancel_left, List.take_left]
  · rw [← List.drop_drop, hbody, List.drop_left]

/-- Settles O9: the fields are read back from `Response.bytes`, and the codes and the bits of FLAGS from their definitions. -/
theorem responsePacketLayout : Obligations.ResponsePacketLayout := by
  refine ⟨fun r => Response.bytes_fields, fun r => ?_, raise_lastErr, fun e => decide_eq_true_iff, fun s => ?_⟩
  · obtain ⟨sts, flg, res, rdata⟩ := r
    cases sts <;> rfl
  · refine ⟨flagsByte_getLsbD s 0, flagsByte_getLsbD s 1, fun n hn => ?_⟩
    obtain ⟨m, rfl⟩ := Nat.exists_eq_add_of_le' hn
    exact flagsByte_getLsbD s (m + 2)

/-- No row of R83 has a larger result block than FRM.DEC's. -/
theorem resSize_le (i : Instr) : resSize i ≤ 28 := by cases i <;> simp [resSize]

/-- An error's response is empty, whatever its status (R184). -/
theorem emptyResponse_fits (e : Status) (s : State) : (Response.mk e (flagsByte s) [] []).Fits where
  rdata_length := Nat.zero_le _
  res_length := Nat.zero_le _
  error_empty _ := rfl
  rdata_ok _ := rfl
  flg_zero := flagsByte_high s

/-- A well-formed command's answer without error fits its packet (R83, R84). -/
theorem Answers.fits {i : Instr} {s u : State} {sts : Status} {res rdata : Bytes} (h : Answers i s sts res rdata u)
    (hi : i.wellFormed = true) (t : State) : (Response.mk sts (flagsByte t) res rdata).Fits where
  rdata_length := h.rdata_length hi
  res_length := h.res_length ▸ resSize_le i
  error_empty he := absurd (he.symm.trans h.sts_normal) (by decide)
  rdata_ok := h.rdata_ok
  flg_zero := flagsByte_high t

/-- One more response that fits. -/
theorem State.ResponsesFit.of_outbox_append {s t : State} {r : Response} (h : s.ResponsesFit) (ht : t.outbox = s.outbox ++ [r])
    (hr : r.Fits) : t.ResponsesFit := by
  intro r' hr'
  rw [ht, List.mem_append, List.mem_singleton] at hr'
  rcases hr' with hold | rfl
  · exact h r' hold
  · exact hr

/-- Settles O45: the one response a packet gets is an error's empty one, or that of the command the packet decodes to, which
is well-formed (`encodeOfDecode`). -/
theorem everyStepKeepsResponsesFit : Obligations.EveryStepKeepsResponsesFit := by
  intro s t hs ht
  rcases step_cases ht with ⟨_, rfl⟩ | ⟨rest, _, rfl⟩ | ⟨c, rest, hq, _⟩
  · exact hs
  · exact hs
  · rcases packet_ends hq ht with ⟨e, _, rfl⟩ | ⟨i, sts, res, rdata, u, hi, rfl, ha⟩
    · exact hs.of_outbox_append (raise_outbox e _) (emptyResponse_fits e _)
    · refine hs.of_outbox_append (r := ⟨sts, flagsByte u, res, rdata⟩) ?_ (ha.fits (encodeOfDecode c i hi).2 u)
      rw [respond_outbox, ha.outbox, State.setInbox_outbox]

end Sys2Proof.Machine
end

section
/-! The cipher commands (40_cipher R100 to R105): what each answers under the clear latch, once per case of its key and its
data, and what an `OK` answer says about them. -/

namespace Sys2Proof.Machine

/-- The block a slice of 16 bytes names is the one the blockwise map takes there. -/
theorem firstBlock_drop_of_slice {q : Bytes} {j : Nat} {b : Block} (h : b.1 = slice q (16 * j) (16 * j + 16)) :
    firstBlock (q.drop (16 * j)) = b := by
  have htake : b.1 = (q.drop (16 * j)).take 16 := by rw [h, slice, Nat.add_sub_cancel_left]
  have hlen : 16 ≤ (q.drop (16 * j)).length := by
    have := congrArg List.length htake
    rw [b.2, List.length_take] at this
    omega
  exact Subtype.ext ((firstBlock_val hlen).trans htake.symm)

/-- The blockwise map, block by block, of blocks named by their bytes (R77). -/
theorem mapBlocks_block (f : Block → Block) {n : Nat} {q : Bytes} {j : Nat} {b : Block} (hj : j < n)
    (h : b.1 = slice q (16 * j) (16 * j + 16)) : slice (mapBlocks f n q) (16 * j) (16 * j + 16) = (f b).1 := by
  rw [mapBlocks_slice f n q j hj, firstBlock_drop_of_slice h]

/-- Block `j` of the ciphertext is `Enc` of block `j` of the padded plaintext (R77, R101). -/
theorem ecbEnc_pad_block (c : Config) (key : Bytes) {p : Bytes} {j : Nat} {b : Block} (hj : j < p.length / 16 + 1)
    (h : b.1 = slice (pad p) (16 * j) (16 * j + 16)) :
    slice (ecbEnc c key (pad p)) (16 * j) (16 * j + 16) = (c.params.enc key b).1 :=
  mapBlocks_block _ (by rw [pad_length, blockBytes]; omega) h

theorem ecbEnc_pad_length (c : Config) (key p : Bytes) : (ecbEnc c key (pad p)).length = 16 * (p.length / 16 + 1) := by
  rw [ecbEnc_length, pad_length, Nat.mul_div_cancel_left _ (by omega)]

/-- Deciphering keeps the length of whole blocks. -/
theorem ecbDec_length_of_blocks (c : Config) (key : Bytes) {ct : Bytes} (h : ct.length % 16 = 0) :
    (ecbDec c key ct).length = ct.length := by
  rw [ecbDec_length]
  omega

/-- An installed or fixed key has a legal length (R9, R24). -/
theorem cipherKeyIs_length {k : CipherSlot} {s : State} {key : Bytes} (hs : s.Inv) (hk : cipherKeyIs k s key) :
    key.length ∈ cfg.params.keyLens := by
  cases k with
  | master =>
    obtain rfl : key = cfg.params.kMaster := hk
    exact cfg.legal.kMaster_length
  | visit =>
    obtain rfl : key = cfg.params.kVisit := hk
    exact cfg.legal.kVisit_length
  | session =>
    obtain ⟨hv, rfl⟩ := hk
    exact hs.ks_legal hv

/-- A slot holds one key at a time. -/
theorem cipherKeyIs_unique {k : CipherSlot} {s : State} {key key' : Bytes} (h : cipherKeyIs k s key)
    (h' : cipherKeyIs k s key') : key = key' :=
  Option.some.inj ((cipherKey_iff.mpr h).symm.trans (cipherKey_iff.mpr h'))

/-- Slot SESSION gives no key while `KS_VALID = 0` (R24, R100). -/
theorem cipherKey_session_absent {s : State} (h : s.ksValid = false) : cipherKey cfg .session s = none :=
  if_neg (by simp [h])

section
variable {k : CipherSlot} {s : State} {key : Bytes}

theorem exec_ecbEnc_noKey (p : Bytes) (hf : s.fatal = false) (hk : cipherKey cfg k s = none) :
    exec (.ecbEnc k p) s = .next (raise .cryptoKeylen s) := by
  have hcmd : ecbEncCmd cfg k p s = raise .cryptoKeylen s := by simp only [ecbEncCmd, hk]
  exact (underLatch_clear hf).trans (congrArg _ hcmd)

theorem exec_ecbEnc (p : Bytes) (hf : s.fatal = false) (hk : cipherKeyIs k s key) :
    exec (.ecbEnc k p) s = .next (respond .ok [] (ecbEnc cfg key (pad p)) s) := by
  have hcmd : ecbEncCmd cfg k p s = respond .ok [] (ecbEnc cfg key (pad p)) s := by
    simp only [ecbEncCmd, cipherKey_iff.mpr hk]
  exact (underLatch_clear hf).trans (congrArg _ hcmd)

theorem exec_ecbDec_noKey (ct : Bytes) (hf : s.fatal = false) (hk : cipherKey cfg k s = none) :
    exec (.ecbDec k ct) s = .next (raise .cryptoKeylen s) := by
  have hcmd : ecbDecCmd cfg k ct s = raise .cryptoKeylen s := by simp only [ecbDecCmd, hk]
  exact (underLatch_clear hf).trans (congrArg _ hcmd)

theorem exec_ecbDec_notBlocks {ct : Bytes} (hf : s.fatal = false) (hk : cipherKeyIs k s key)
    (hl : ct.length = 0 ∨ ct.length % 16 ≠ 0) : exec (.ecbDec k ct) s = .next (raise .cryptoBlklen s) := by
  have hcmd : ecbDecCmd cfg k ct s = raise .cryptoBlklen s := by
    simp only [ecbDecCmd, cipherKey_iff.mpr hk]
    exact if_pos hl
  exact (underLatch_clear hf).trans (congrArg _ hcmd)

/-- On whole blocks under a usable key, ECB.DEC answers what is left after unpadding, or raises `E_CRYPTO_PAD` (R102). -/
theorem exec_ecbDec_blocks {ct : Bytes} (hf : s.fatal = false) (hk : cipherKeyIs k s key) (h0 : 0 < ct.length)
    (hl : ct.length % 16 = 0) : exec (.ecbDec k ct) s =
      .next ((unpad (ecbDec cfg key ct)).elim (raise .cryptoPad s) fun p => respond .ok [] p s) := by
  have hcmd : ecbDecCmd cfg k ct s =
      (unpad (ecbDec cfg key ct)).elim (raise .cryptoPad s) fun p => respond .ok [] p s := by
    have hblocks : ¬(ct.length = 0 ∨ ct.length % blockBytes ≠ 0) := by rw [blockBytes]; omega
    simp only [ecbDecCmd, cipherKey_iff.mpr hk, if_neg hblocks]
    cases unpad (ecbDec cfg key ct) <;> rfl
  exact (underLatch_clear hf).trans (congrArg _ hcmd)

/-- A command that answers in the state it began in was not refused by the latch. -/
theorem fatal_clear_of_respond {i : Instr} {sts : Status} {res rdata : Bytes}
    (h : exec i s = .next (respond sts res rdata s)) (hi : i ≠ .statRd) (hsts : sts ≠ .fatal) : s.fatal = false := by
  refine Bool.eq_false_iff.mpr fun hf => ?_
  rw [exec_latched hf hi] at h
  exact raise_ne_respond hsts.symm (Host.Outcome.next.inj h)

/-- What an `OK` answer of ECB.ENC says (R101). -/
theorem exec_ecbEnc_ok {p ct : Bytes} (h : exec (.ecbEnc k p) s = .next (respond .ok [] ct s)) :
    s.fatal = false ∧ ∃ key, cipherKeyIs k s key ∧ ct = ecbEnc cfg key (pad p) := by
  have hf : s.fatal = false := fatal_clear_of_respond h nofun nofun
  refine ⟨hf, ?_⟩
  cases hk : cipherKey cfg k s with
  | none =>
    rw [exec_ecbEnc_noKey p hf hk] at h
    exact absurd (Host.Outcome.next.inj h) (raise_ne_respond nofun)
  | some key =>
    have hkey := cipherKey_iff.mp hk
    rw [exec_ecbEnc p hf hkey] at h
    exact ⟨key, hkey, (respond_inj (Host.Outcome.next.inj h)).2.symm⟩

/-- What an `OK` answer of ECB.DEC says (R102). -/
theorem exec_ecbDec_ok {p ct : Bytes} (h : exec (.ecbDec k ct) s = .next (respond .ok [] p s)) :
    ∃ key, 0 < ct.length ∧ ct.length % 16 = 0 ∧ unpad (ecbDec cfg key ct) = some p := by
  have hf : s.fatal = false := fatal_clear_of_respond h nofun nofun
  cases hk : cipherKey cfg k s with
  | none =>
    rw [exec_ecbDec_noKey ct hf hk] at h
    exact absurd (Host.Outcome.next.inj h) (raise_ne_respond nofun)
  | some key =>
    have hkey := cipherKey_iff.mp hk
    by_cases hl : ct.length = 0 ∨ ct.length % 16 ≠ 0
    · rw [exec_ecbDec_notBlocks hf hkey hl] at h
      exact absurd (Host.Outcome.next.inj h) (raise_ne_respond nofun)
    · have h0 : 0 < ct.length := by omega
      have h16 : ct.length % 16 = 0 := by omega
      rw [exec_ecbDec_blocks hf hkey h0 h16] at h
      refine ⟨key, h0, h16, ?_⟩
      cases hu : unpad (ecbDec cfg key ct) with
      | none =>
        rw [hu] at h
        exact absurd (Host.Outcome.next.inj h) (raise_ne_respond nofun)
      | some q =>
        rw [hu] at h
        exact congrArg some (respond_inj (Host.Outcome.next.inj h)).2

end

/-- Settles O13: the ciphertext is `ecbEnc` of the padded plaintext, taken block by block (`ecbEnc_pad_block`). -/
theorem ecbEncEnciphersPaddedBlocks : Obligations.EcbEncEnciphersPaddedBlocks := by
  intro k p s key hf hk
  exact ⟨_, exec_ecbEnc p hf hk, ecbEnc_pad_length cfg key p, fun j hj b hb => ecbEnc_pad_block cfg key hj hb⟩

/-- Settles O14: `q` is `ecbDec` of the ciphertext and `v` its last byte, and unpadding `q` has the two outcomes of
`unpad_eq`. -/
theorem ecbDecDeciphersAndUnpads : Obligations.EcbDecDeciphersAndUnpads := by
  intro k ct s key hf hk h0 h16
  have hlen := ecbDec_length_of_blocks cfg key h16
  have hlast : ct.length - 1 < (ecbDec cfg key ct).length := by omega
  have hv : byteAt (ecbDec cfg key ct) ((ecbDec cfg key ct).length - 1) = (ecbDec cfg key ct)[ct.length - 1] := by
    rw [hlen]
    exact List.getD_eq_getElem _ _ hlast
  refine ⟨ecbDec cfg key ct, _, hlen, fun j hj b hb => mapBlocks_block _ hj hb, List.getElem?_eq_getElem hlast, ?_⟩
  rw [exec_ecbDec_blocks hf hk h0 h16, unpad_eq _ _ hv, hlen]
  split <;> rfl

/-- Settles O16: the one key both commands use has a legal length, so the blocks come back (`ecbDec_ecbEnc`) and the padding
comes off (`unpad_pad`). -/
theorem ecbRoundTrip : Obligations.EcbRoundTrip := by
  intro k p ct s hs _ h
  obtain ⟨hf, key, hk, rfl⟩ := exec_ecbEnc_ok h
  have hct := ecbEnc_pad_length cfg key p
  have hpad : (pad p).length % 16 = 0 := by rw [pad_length]; omega
  rw [exec_ecbDec_blocks hf hk (by omega) (by omega), ecbDec_ecbEnc (cipherKeyIs_length hs hk) hpad, unpad_pad]
  rfl

/-- Settles O17: `ecbEnc` keeps the length of the padded plaintext, and `unpad` takes 1 to 16 bytes off (`unpad_some`). -/
theorem cipherLengthLaws : Obligations.CipherLengthLaws := by
  refine ⟨fun k p ct s h => ?_, fun k p ct s h => ?_⟩
  · obtain ⟨_, key, _, rfl⟩ := exec_ecbEnc_ok h
    exact ecbEnc_pad_length cfg key p
  · obtain ⟨key, h0, h16, hu⟩ := exec_ecbDec_ok h
    have hlen := ecbDec_length_of_blocks cfg key h16
    obtain ⟨n, h1, hn, _, hp⟩ := unpad_some (by omega) hu
    exact ⟨n, h1, hn, by omega, by omega⟩

/-- Settles O18: both ciphertext blocks are `Enc` of the one block the two padded plaintexts share. -/
theorem ciphertextBlockIndependence : Obligations.CiphertextBlockIndependence := by
  intro k k' p p' ct ct' key s s' j hk hk' h h' hj hj' hblock
  obtain ⟨_, _, hkey, rfl⟩ := exec_ecbEnc_ok h
  obtain ⟨_, _, hkey', rfl⟩ := exec_ecbEnc_ok h'
  obtain rfl := cipherKeyIs_unique hk hkey
  obtain rfl := cipherKeyIs_unique hk' hkey'
  have hlen : (slice (pad p) (16 * j) (16 * j + 16)).length = 16 := by
    rw [slice_length (by rw [pad_length]; omega), Nat.add_sub_cancel_left]
  exact (ecbEnc_pad_block cfg key (b := ⟨_, hlen⟩) hj rfl).trans (ecbEnc_pad_block cfg key (b := ⟨_, hlen⟩) hj' hblock).symm

/-- Settles O15: the missing key answers first, whatever the data; under a usable key ECB.DEC refuses what is not whole
blocks. -/
theorem cipherErrorsKeyBeforeLength : Obligations.CipherErrorsKeyBeforeLength := fun _ hf =>
  ⟨fun p hv => exec_ecbEnc_noKey p hf (cipherKey_session_absent hv),
    fun ct hv => exec_ecbDec_noKey ct hf (cipherKey_session_absent hv),
    fun _ _ _ hk hl => exec_ecbDec_notBlocks hf hk hl⟩

end Sys2Proof.Machine
end

section
/-! The codec commands (41_codec R120 to R126), and SIG.GEN, which signs a frame: when each answers `OK` and with what, the
bytes of the frame FRM.ENC builds, and what FRM.DEC and FRAMER make of it. -/

namespace Sys2Proof.Machine

/-- A byte of a string, as the reading with no byte outside it. -/
theorem getElem?_eq_byteAt {b : Bytes} {i : Nat} (h : i < b.length) : b[i]? = some (byteAt b i) := by
  rw [byteAt, List.getD_eq_getElem _ _ h, List.getElem?_eq_getElem h]

theorem respond_eq_respond_iff {sts : Status} {a b a' b' : Bytes} {s : State} :
    respond sts a b s = respond sts a' b' s ↔ a = a' ∧ b = b' :=
  ⟨respond_inj, fun ⟨ha, hb⟩ => by rw [ha, hb]⟩

/-- Under the latch a command answers `OK` exactly when the latch is clear and the command's own effect is that answer. -/
theorem underLatch_eq_ok_iff {s t : State} {res rdata : Bytes} :
    underLatch s t = .next (respond .ok res rdata s) ↔ s.fatal = false ∧ t = respond .ok res rdata s := by
  refine ⟨fun h => ?_, fun ⟨hf, ht⟩ => by rw [underLatch_clear hf, ht]⟩
  rcases underLatch_cases h with ⟨_, hu⟩ | ⟨hf, hu⟩
  · exact absurd hu.symm (raise_ne_respond nofun)
  · exact ⟨hf, hu.symm⟩

/-- A slot holds one signing key at a time. -/
theorem signKeyIs_unique {k : SignSlot} {s : State} {key key' : Bytes} (h : signKeyIs k s key) (h' : signKeyIs k s key') :
    key = key' :=
  Option.some.inj ((signKey_iff.mpr h).symm.trans (signKey_iff.mpr h'))

/-- Slot SESSION gives no signing key while `KS_VALID = 0` (R24, R140). -/
theorem signKey_session_absent {s : State} (h : s.ksValid = false) : signKey cfg .session s = none :=
  if_neg (by simp [h])

/-- The frame FRM.ENC builds: header, payload and the signature of both (R75, R121). -/
def frameBytes (c : Config) (v : VersionSel) (h : Hdesc) (p key : Bytes) : Bytes :=
  headerBytes c v h p.length ++ p ++ (c.params.sig (headerBytes c v h p.length ++ p) key).1

section
variable {k : SignSlot} {v : VersionSel} {h : Hdesc} {p : Bytes} {s : State}

/-- When HDR.ENC answers `OK`, and with what (R120). -/
theorem exec_hdrEnc_ok_iff {hdr : Bytes} : exec (.hdrEnc v h) s = .next (respond .ok [] hdr s) ↔
    s.fatal = false ∧ h.plen.toNat ≤ 65491 ∧ hdr = headerBytes cfg v h h.plen.toNat := by
  refine underLatch_eq_ok_iff.trans (and_congr_right fun _ => ?_)
  rcases Nat.lt_or_ge 65491 h.plen.toNat with hn | hn
  · simp [hdrEncCmd, mkHeader_oversize hn, raise_ne_respond, Nat.not_le.mpr hn]
  · simp [hdrEncCmd, mkHeader_fits hn, respond_eq_respond_iff, hn, eq_comm]

theorem exec_hdrEnc_oversize (hf : s.fatal = false) (hn : 65491 < h.plen.toNat) :
    exec (.hdrEnc v h) s = .next (raise .framingOversize s) := by
  have hcmd : hdrEncCmd cfg v h s = raise .framingOversize s := by simp only [hdrEncCmd, mkHeader_oversize hn]
  exact (underLatch_clear hf).trans (congrArg _ hcmd)

/-- When SIG.GEN answers `OK`, and with what (R141). -/
theorem exec_sigGen_ok_iff {d sg : Bytes} : exec (.sigGen k d) s = .next (respond .ok [] sg s) ↔
    s.fatal = false ∧ ∃ key, signKeyIs k s key ∧ sg = (cfg.params.sig d key).1 := by
  refine underLatch_eq_ok_iff.trans (and_congr_right fun _ => ?_)
  simp only [← signKey_iff]
  cases hk : signKey cfg k s with
  | none => simp [sigGenCmd, hk, raise_ne_respond]
  | some key => simp [sigGenCmd, hk, respond_eq_respond_iff, eq_comm]

/-- When FRM.ENC answers `OK`, and with what (R121). -/
theorem exec_frmEnc_ok_iff {f : Bytes} : exec (.frmEnc k v h p) s = .next (respond .ok [] f s) ↔
    s.fatal = false ∧ p.length ≤ 65491 ∧ ∃ key, signKeyIs k s key ∧ f = frameBytes cfg v h p key := by
  refine underLatch_eq_ok_iff.trans (and_congr_right fun _ => ?_)
  simp only [← signKey_iff]
  cases hk : signKey cfg k s with
  | none => simp [frmEncCmd, hk, raise_ne_respond]
  | some key =>
    rcases Nat.lt_or_ge 65491 p.length with hn | hn
    · simp [frmEncCmd, hk, mkHeader_oversize hn, raise_ne_respond, Nat.not_le.mpr hn]
    · simp [frmEncCmd, hk, mkHeader_fits hn, respond_eq_respond_iff, hn, frameBytes, eq_comm]

theorem exec_frmEnc_noKey (hf : s.fatal = false) (hk : signKey cfg k s = none) :
    exec (.frmEnc k v h p) s = .next (raise .cryptoKeylen s) := by
  have hcmd : frmEncCmd cfg k v h p s = raise .cryptoKeylen s := by simp only [frmEncCmd, hk]
  exact (underLatch_clear hf).trans (congrArg _ hcmd)

theorem exec_frmEnc_oversize {key : Bytes} (hf : s.fatal = false) (hk : signKeyIs k s key) (hn : 65491 < p.length) :
    exec (.frmEnc k v h p) s = .next (raise .framingOversize s) := by
  have hcmd : frmEncCmd cfg k v h p s = raise .framingOversize s := by
    simp only [frmEncCmd, signKey_iff.mpr hk, mkHeader_oversize hn]
  exact (underLatch_clear hf).trans (congrArg _ hcmd)

theorem exec_frmDec {d : Bytes} (hf : s.fatal = false) (hd : frameLengthOk d = true) :
    exec (.frmDec d) s = .next (respond .ok (rdesc d) (slice d 40 (d.length - 4)) s) := by
  have hcmd : frmDecCmd d s = respond .ok (rdesc d) (slice d 40 (d.length - 4)) s := if_pos hd
  exact (underLatch_clear hf).trans (congrArg _ hcmd)

theorem exec_frmDec_badLength {d : Bytes} (hf : s.fatal = false) (hd : ¬ frameLengthOk d = true) :
    exec (.frmDec d) s = .next (raise .framingLen s) := by
  have hcmd : frmDecCmd d s = raise .framingLen s := if_neg hd
  exact (underLatch_clear hf).trans (congrArg _ hcmd)

end

section
variable (c : Config) (v : VersionSel) (h : Hdesc) (p key : Bytes)

@[simp] theorem frameBytes_length : (frameBytes c v h p key).length = 44 + p.length := by
  simp only [frameBytes, List.length_append, headerBytes_length, (c.params.sig _ key).2]
  omega

/-- A slice within the first 40 bytes of a built frame is one of its header. -/
theorem slice_frameBytes_header {i j : Nat} (hj : j ≤ 40) :
    slice (frameBytes c v h p key) i j = slice (headerBytes c v h p.length) i j := by
  rw [frameBytes, List.append_assoc, slice_append_left (by rwa [headerBytes_length])]

theorem byteAt_frameBytes_header {i : Nat} (hi : i < 40) :
    byteAt (frameBytes c v h p key) i = byteAt (headerBytes c v h p.length) i := by
  rw [frameBytes, List.append_assoc, byteAt_append_left (by rwa [headerBytes_length])]

/-- A built frame without its last four bytes is what was signed (R75). -/
theorem slice_frameBytes_signed :
    slice (frameBytes c v h p key) 0 (40 + p.length) = headerBytes c v h p.length ++ p := by
  rw [frameBytes, slice_append_left (by simp), slice_zero, List.take_of_length_le (by simp)]

theorem slice_frameBytes_payload : slice (frameBytes c v h p key) 40 (40 + p.length) = p := by
  rw [frameBytes, slice_append_left (by simp), slice_append_right (by simp), headerBytes_length, Nat.sub_self,
    Nat.add_sub_cancel_left, slice_zero, List.take_length]

theorem slice_frameBytes_signature :
    slice (frameBytes c v h p key) (40 + p.length) (44 + p.length) =
      (c.params.sig (headerBytes c v h p.length ++ p) key).1 := by
  rw [← frameBytes_length c v h p key, slice_to_end, frameBytes, List.drop_left' (by simp)]

variable {p}

theorem totalLength_frameBytes (hp : p.length ≤ 65491) : totalLength (frameBytes c v h p key) = 44 + p.length := by
  rw [frameBytes, List.append_assoc, totalLength_headerBytes c v h hp]

theorem frameLengthOk_frameBytes (hp : p.length ≤ 65491) : frameLengthOk (frameBytes c v h p key) = true :=
  built_frameLengthOk c v h p _ hp

/-- `RDESC` and `SIGV` of a built frame, field by field (R85). -/
theorem rdesc_frameBytes (hp : p.length ≤ 65491) :
    rdesc (frameBytes c v h p key) = natBytes16 (44 + p.length) ++ le16bytes (versionOf c v) ++ le16bytes h.cmd
      ++ le32bytes h.sid ++ le16bytes h.ser ++ [h.dir] ++ [h.err] ++ le16bytes h.ctl ++ le32bytes h.uid ++ le32bytes h.ts
      ++ (c.params.sig (headerBytes c v h p.length ++ p) key).1 := by
  obtain ⟨_, _, hver, hcmd, hsid, hser, hdir, herr, hctl, huid, _, hts, _, _⟩ := headerBytes_fields c v h p.length
  have hsig : (frameBytes c v h p key).length - sigBytes = 40 + p.length := by rw [frameBytes_length, sigBytes]; omega
  rw [rdesc, totalLength_frameBytes c v h key hp, hsig, frameBytes_length, slice_frameBytes_signature]
  simp only [slice_frameBytes_header, byteAt_frameBytes_header, Nat.reduceLeDiff, Nat.reduceLT, hver, hcmd, hsid, hser, hdir,
    herr, hctl, huid, hts]

/-- `SIGV` of a built frame, after the 24 bytes of `RDESC` (R85). -/
theorem slice_rdesc_frameBytes_signature (hp : p.length ≤ 65491) :
    slice (rdesc (frameBytes c v h p key)) 24 28 = (c.params.sig (headerBytes c v h p.length ++ p) key).1 := by
  rw [rdesc_frameBytes c v h key hp]
  exact (slice_append_right (Nat.le_refl 24)).trans (List.take_of_length_le (Nat.le_of_eq (c.params.sig _ key).2))

/-- FRAMER sees the header of a built frame (R124). -/
theorem headAt_frameBytes (hp : p.length ≤ 65491) : headAt c (frameBytes c v h p key) := by
  obtain ⟨hstart, _, _, _, _, _, _, _, _, _, _, _, _, hend⟩ := headerBytes_fields c v h p.length
  refine ⟨by rw [frameBytes_length]; omega, ?_, ?_, by rw [totalLength_frameBytes c v h key hp]; omega⟩
  · rw [slice_frameBytes_header c v h p key (by decide), hstart]
  · rw [slice_frameBytes_header c v h p key (by decide), hend]

end

/-- A header whose declared length is that of all the bytes gives them as one frame, and nothing is left. -/
theorem extract_whole {c : Config} {q : Bytes} (h : headAt c q) (hl : totalLength q = q.length) :
    extract c q = ⟨[], some q⟩ := by
  rw [extract_of_headAt h, hl, if_neg (Nat.lt_irrefl _), List.drop_length, List.take_length]

/-- FR.FEED of one whole frame to an empty FB answers the frame and leaves the state as it was (R124, R158). -/
theorem exec_frFeed_whole {d : Bytes} {s : State} (hf : s.fatal = false) (hfb : s.fb = []) (h : headAt cfg d)
    (hl : totalLength d = d.length) : exec (.frFeed d) s = .next (respond .ok [0x00, 0x00, 0x00, 0x00] d s) := by
  have hfits : s.fb.length + d.length ≤ fbCap := by
    have := totalLength_lt d
    rw [hfb, List.length_nil, fbCap]; omega
  have hpush : Memory.append s.fb d = some d := by rw [Memory.append_fits hfits, hfb, List.nil_append]
  have hback : (s.setFb d).setFb [] = s := hfb ▸ rfl
  have hcmd : frFeedCmd cfg d s = respond .ok [0x00, 0x00, 0x00, 0x00] d s := by
    simp only [frFeedCmd, hpush, frPopCmd, State.setFb_fb, extract_whole h hl, hback]
    rfl
  exact (underLatch_clear hf).trans (congrArg _ hcmd)

/-- Settles O19: the answer is `headerBytes`, whose fields are read back from `headerBytes_fields`. -/
theorem hdrEncWritesEveryField : Obligations.HdrEncWritesEveryField := by
  intro v h s hf
  refine ⟨fun hn => ?_, exec_hdrEnc_oversize hf⟩
  have hlen := headerBytes_length cfg v h h.plen.toNat
  obtain ⟨hstart, htotal, hver, hcmd, hsid, hser, hdir, herr, hctl, huid, hzero, hts, hzeros, hend⟩ :=
    headerBytes_fields cfg v h h.plen.toNat
  refine ⟨_, exec_hdrEnc_ok_iff.mpr ⟨hf, hn, rfl⟩, hlen, hstart, ?_, ?_, ?_, ?_, ?_, ?_, ?_, ?_, ?_, hzero, ?_, hzeros, hend⟩
  · rw [htotal, le16_natBytes16 (by omega)]; omega
  · rw [hver, le16_le16bytes]; cases v <;> rfl
  · rw [hcmd, le16_le16bytes]
  · rw [le32s, hsid, le32_le32bytes]
  · rw [hser, le16_le16bytes]
  · rw [getElem?_eq_byteAt (by omega), hdir]
  · rw [getElem?_eq_byteAt (by omega), herr]
  · rw [hctl, le16_le16bytes]
  · rw [huid, le32_le32bytes]
  · rw [hts, le32_le32bytes]

/-- Settles O20: HDR.ENC and FRM.ENC write the same header, which does not depend on the descriptor's own PLEN. -/
theorem frmEncSignsHeaderAndPayload : Obligations.FrmEncSignsHeaderAndPayload := by
  intro k v h p s hf
  refine ⟨fun key hk hp => ?_, fun key hk hp => exec_frmEnc_oversize hf hk hp,
    fun hv => exec_frmEnc_noKey hf (signKey_session_absent hv)⟩
  have hplen : (BitVec.ofNat 16 p.length).toNat = p.length := by rw [BitVec.toNat_ofNat]; omega
  refine ⟨headerBytes cfg v h p.length, exec_hdrEnc_ok_iff.mpr ⟨hf, ?_, ?_⟩, exec_frmEnc_ok_iff.mpr ⟨hf, hp, key, hk, rfl⟩⟩
  · rwa [hplen]
  · rw [hplen]; rfl

/-- Settles O21: FRM.DEC tests the length (`frameLengthOk_iff`) and nothing else, and its result block is three runs of the
frame's bytes (`rdesc_eq`). -/
theorem frmDecSplitsFrame : Obligations.FrmDecSplitsFrame := by
  intro d s hf
  refine ⟨fun hl ht => ?_, fun hbad => exec_frmDec_badLength hf fun hd => ?_⟩
  · have hd : frameLengthOk d = true := frameLengthOk_iff.mpr ⟨hl, ht⟩
    rw [exec_frmDec hf hd, rdesc_eq hd]
  · obtain ⟨hl, ht⟩ := frameLengthOk_iff.mp hd
    exact hbad.elim (Nat.not_lt.mpr hl) fun hne => hne ht

/-- Settles O22: FRM.DEC accepts the frame built, its result block is `rdesc_frameBytes`, and the slot holds one key. -/
theorem headerFieldsRoundTrip : Obligations.HeaderFieldsRoundTrip := by
  intro k v h p f s hp hfrm
  obtain ⟨hf, _, key, hk, rfl⟩ := exec_frmEnc_ok_iff.mp hfrm
  have hcut : (frameBytes cfg v h p key).length - 4 = 40 + p.length := by rw [frameBytes_length]; omega
  refine ⟨rdesc (frameBytes cfg v h p key), ?_, ?_⟩
  · rw [exec_frmDec hf (frameLengthOk_frameBytes cfg v h key hp), hcut, slice_frameBytes_payload]
  · have hsig := slice_rdesc_frameBytes_signature cfg v h key hp
    rw [rdesc_frameBytes cfg v h key hp] at hsig ⊢
    refine ⟨le16_natBytes16 (by omega), ?_, le16_le16bytes h.cmd, congrArg BitVec.toInt (le32_le32bytes h.sid),
      le16_le16bytes h.ser, rfl, rfl, le16_le16bytes h.ctl, le32_le32bytes h.uid, le32_le32bytes h.ts, fun key' hk' => ?_⟩
    · refine (le16_le16bytes (versionOf cfg v)).trans ?_
      cases v <;> rfl
    · rw [hsig, hcut, slice_frameBytes_signed, signKeyIs_unique hk' hk]

/-- Settles O23: the frame built starts with a header of its own length, so the extraction takes all of it. -/
theorem framerTakesBuiltFrame : Obligations.FramerTakesBuiltFrame := by
  intro k v h p f s hp hfrm hfb
  obtain ⟨hf, _, key, _, rfl⟩ := exec_frmEnc_ok_iff.mp hfrm
  have hhead := headAt_frameBytes cfg v h key hp
  have ⟨_, hstart, hend, _⟩ := hhead
  obtain ⟨hmin, hl⟩ := frameLengthOk_iff.mp (frameLengthOk_frameBytes cfg v h key hp)
  exact ⟨exec_frFeed_whole hf hfb hhead hl, hstart, hend, hl, hmin⟩

/-- Settles O24: both sides say that the latch is clear, the payload fits and the slot holds a key, and fix the same bytes; PLEN
of a legal FRM.ENC is its payload's length (R87). -/
theorem frmEncIsHdrEncThenSigGen : Obligations.FrmEncIsHdrEncThenSigGen := by
  intro k v h p f s hwf
  have hplen : h.plen.toNat = p.length := eq_of_beq (Bool.and_eq_true_iff.mp hwf).2
  simp only [exec_frmEnc_ok_iff, exec_hdrEnc_ok_iff, exec_sigGen_ok_iff, hplen]
  constructor
  · rintro ⟨hf, hp, key, hk, rfl⟩
    exact ⟨_, _, ⟨hf, hp, rfl⟩, ⟨hf, key, hk, rfl⟩, rfl⟩
  · rintro ⟨_, _, ⟨hf, hp, rfl⟩, ⟨_, key, hk, rfl⟩, rfl⟩
    exact ⟨hf, hp, key, hk, rfl⟩

end Sys2Proof.Machine
end

section
/-! The signature commands (42_signature R140 to R143): what each answers under the clear latch, once per case of its key and
its data, and why the trailer of a built frame matches. -/

namespace Sys2Proof.Machine

/-- SIG.CHK's comparison, over the bytes before the trailer and the trailer itself (R142). -/
theorem trailerMatches_iff {c : Config} {key d : Bytes} : trailerMatches c key d = true ↔
    (c.params.sig (d.take (d.length - 4)) key).1 = d.drop (d.length - 4) := by
  rw [trailerMatches, slice_zero, slice_to_end, beq_iff_eq, sigBytes]

/-- The trailer of a built frame is the signature of the rest of it (R75, R143). -/
theorem trailerMatches_frameBytes (c : Config) (v : VersionSel) (h : Hdesc) (p key : Bytes) :
    trailerMatches c key (frameBytes c v h p key) = true := by
  have hcut : (frameBytes c v h p key).length - sigBytes = 40 + p.length := by rw [frameBytes_length, sigBytes]; omega
  rw [trailerMatches, hcut, slice_frameBytes_signed, frameBytes_length, slice_frameBytes_signature, beq_self_eq_true]

section
variable {k : SignSlot} {d : Bytes} {s : State} {key : Bytes}

theorem exec_sigGen_noKey (hf : s.fatal = false) (hk : signKey cfg k s = none) :
    exec (.sigGen k d) s = .next (raise .cryptoKeylen s) := by
  have hcmd : sigGenCmd cfg k d s = raise .cryptoKeylen s := by simp only [sigGenCmd, hk]
  exact (underLatch_clear hf).trans (congrArg _ hcmd)

theorem exec_sigChk_noKey (hf : s.fatal = false) (hk : signKey cfg k s = none) :
    exec (.sigChk k d) s = .next (raise .cryptoKeylen s) := by
  have hcmd : sigChkCmd cfg k d s = raise .cryptoKeylen s := by simp only [sigChkCmd, hk]
  exact (underLatch_clear hf).trans (congrArg _ hcmd)

theorem exec_sigChk_badLength (hf : s.fatal = false) (hk : signKeyIs k s key) (hd : ¬ frameLengthOk d = true) :
    exec (.sigChk k d) s = .next (raise .framingLen s) := by
  have hcmd : sigChkCmd cfg k d s = raise .framingLen s := by simp only [sigChkCmd, signKey_iff.mpr hk, if_neg hd]
  exact (underLatch_clear hf).trans (congrArg _ hcmd)

/-- On data of a consistent length under a usable key, SIG.CHK answers `OK`, and `MATCH` is its comparison (R142). -/
theorem exec_sigChk (hf : s.fatal = false) (hk : signKeyIs k s key) (hd : frameLengthOk d = true) :
    exec (.sigChk k d) s = .next (respond .ok [if trailerMatches cfg key d then 0x01 else 0x00] [] s) := by
  have hcmd : sigChkCmd cfg k d s = respond .ok [if trailerMatches cfg key d then 0x01 else 0x00] [] s := by
    simp only [sigChkCmd, signKey_iff.mpr hk, if_pos hd]
  exact (underLatch_clear hf).trans (congrArg _ hcmd)

end

/-- Settles O25: SIG.GEN has no other condition than the clear latch and a key in its slot (`exec_sigGen_ok_iff`). -/
theorem sigGenSigns : Obligations.SigGenSigns := fun _ _ _ hf =>
  ⟨fun key hk => exec_sigGen_ok_iff.mpr ⟨hf, key, hk, rfl⟩, fun hv => exec_sigGen_noKey hf (signKey_session_absent hv)⟩

/-- Settles O26: SIG.CHK tests the key, then the length (`frameLengthOk_iff`), then the trailer (`trailerMatches_iff`). -/
theorem sigChkComparesTrailer : Obligations.SigChkComparesTrailer := by
  intro k d s hf
  refine ⟨fun key hk hl ht => ?_, fun key hk hbad => ?_, fun hv => exec_sigChk_noKey hf (signKey_session_absent hv)⟩
  · rw [exec_sigChk hf hk (frameLengthOk_iff.mpr ⟨hl, ht⟩)]
    constructor <;> intro hm
    · rw [if_pos (trailerMatches_iff.mpr hm)]
    · rw [if_neg (mt trailerMatches_iff.mp hm)]
  · have hcons : ¬(44 ≤ d.length ∧ totalLength d = d.length) := not_and_or.mpr (hbad.imp_left Nat.not_le.mpr)
    exact exec_sigChk_badLength hf hk (mt frameLengthOk_iff.mp hcons)

/-- Settles O27: the frame built has a consistent length, and its trailer was computed with the key the slot still holds. -/
theorem builtFrameVerifies : Obligations.BuiltFrameVerifies := by
  intro k v h p f s hp hfrm
  obtain ⟨hf, _, key, hk, rfl⟩ := exec_frmEnc_ok_iff.mp hfrm
  rw [exec_sigChk hf hk (frameLengthOk_frameBytes cfg v h key hp), if_pos (trailerMatches_frameBytes cfg v h p key)]

end Sys2Proof.Machine
end

section
/-! The framer commands one by one (43_framer R151 to R159): what each answers under the clear latch, in terms of what one
extraction leaves and returns, and what holds of FB when it waits. -/

namespace Sys2Proof.Machine

section
variable {s : State} {d : Bytes}

theorem exec_frPush_fits (hf : s.fatal = false) (h : s.fb.length + d.length ≤ 131072) :
    exec (.frPush d) s = .next (respond .ok (natBytes32 (s.fb ++ d).length) [] (s.setFb (s.fb ++ d))) := by
  have hcmd : frPushCmd d s = respond .ok (natBytes32 (s.fb ++ d).length) [] (s.setFb (s.fb ++ d)) := by
    simp only [frPushCmd, Memory.append_fits h]
  exact (underLatch_clear hf).trans (congrArg _ hcmd)

theorem exec_frPush_overflow (hf : s.fatal = false) (h : 131072 < s.fb.length + d.length) :
    exec (.frPush d) s = .next (raise .framingOverflow s) := by
  have hcmd : frPushCmd d s = raise .framingOverflow s := by simp only [frPushCmd, Memory.append_overflow h]
  exact (underLatch_clear hf).trans (congrArg _ hcmd)

theorem frPopCmd_of_waits {c : Config} {b : Bytes} (h : extract c s.fb = ⟨b, none⟩) :
    frPopCmd c s = respond .needMore (natBytes32 b.length) [] (s.setFb b) := by
  simp only [frPopCmd, h]

theorem frPopCmd_of_frame {c : Config} {b f : Bytes} (h : extract c s.fb = ⟨b, some f⟩) :
    frPopCmd c s = respond .ok (natBytes32 b.length) f (s.setFb b) := by
  simp only [frPopCmd, h]

@[simp] theorem frPopCmd_fb (c : Config) (s : State) : (frPopCmd c s).fb = (extract c s.fb).fb :=
  let ⟨_, _, hfb, _⟩ := frPopCmd_response c s
  hfb

@[simp] theorem frPopCmd_fatal (c : Config) (s : State) : (frPopCmd c s).fatal = s.fatal := by
  simp only [frPopCmd]; split <;> rfl

theorem exec_frPop (hf : s.fatal = false) : exec .frPop s = .next (frPopCmd cfg s) := underLatch_clear hf

theorem exec_frPop_of_waits {b : Bytes} (hf : s.fatal = false) (h : extract cfg s.fb = ⟨b, none⟩) :
    exec .frPop s = .next (respond .needMore (natBytes32 b.length) [] (s.setFb b)) := by
  rw [exec_frPop hf, frPopCmd_of_waits h]

theorem exec_frPop_of_frame {b f : Bytes} (hf : s.fatal = false) (h : extract cfg s.fb = ⟨b, some f⟩) :
    exec .frPop s = .next (respond .ok (natBytes32 b.length) f (s.setFb b)) := by
  rw [exec_frPop hf, frPopCmd_of_frame h]

/-- FR.FEED whose bytes fit is FR.POP of the longer buffer (R158). -/
theorem frFeedCmd_fits (c : Config) (h : s.fb.length + d.length ≤ 131072) :
    frFeedCmd c d s = frPopCmd c (s.setFb (s.fb ++ d)) := by
  simp only [frFeedCmd, Memory.append_fits h]

theorem frFeedCmd_overflow (c : Config) (h : 131072 < s.fb.length + d.length) :
    frFeedCmd c d s = raise .framingOverflow s := by
  simp only [frFeedCmd, Memory.append_overflow h]

/-- An extracting command that answers `NEED_MORE` returned no frame. -/
theorem frame_none_of_frPopCmd_needMore {c : Config} {r : Response} (ho : (frPopCmd c s).outbox = s.outbox ++ [r])
    (hr : r.sts = .needMore) : (extract c s.fb).frame = none := by
  cases hx : extract c s.fb with
  | mk b o =>
    cases o with
    | none => rfl
    | some f =>
      rw [frPopCmd_of_frame hx] at ho
      rw [respond_response rfl ho] at hr
      cases hr

/-- FR.FEED that answers `NEED_MORE` is FR.POP of a longer buffer: it raised no error. -/
theorem frFeedCmd_of_needMore {c : Config} {r : Response} (ho : (frFeedCmd c d s).outbox = s.outbox ++ [r])
    (hr : r.sts = .needMore) : frFeedCmd c d s = frPopCmd c (s.setFb (s.fb ++ d)) := by
  rcases Nat.lt_or_ge 131072 (s.fb.length + d.length) with hn | hn
  · rw [frFeedCmd_overflow c hn] at ho
    rw [raise_status ho] at hr
    cases hr
  · exact frFeedCmd_fits c hn

/-- A command that answers `NEED_MORE` was not refused by the latch. -/
theorem underLatch_needMore {t u : State} {r : Response} (h : underLatch s t = .next u) (ho : u.outbox = s.outbox ++ [r])
    (hr : r.sts = .needMore) : s.fatal = false ∧ u = t := by
  rcases underLatch_cases h with ⟨_, rfl⟩ | hu
  · rw [raise_status ho] at hr
    cases hr
  · exact hu

/-- FR.POP or FR.FEED that answers `NEED_MORE` ended as FR.POP does, with the latch clear. -/
theorem needMore_is_pop {i : Instr} {t : State} {r : Response} (hi : i = .frPop ∨ ∃ d, i = .frFeed d)
    (ht : exec i s = .next t) (ho : t.outbox = s.outbox ++ [r]) (hr : r.sts = .needMore) :
    ∃ v : State, v.fatal = false ∧ v.outbox = s.outbox ∧ t = frPopCmd cfg v := by
  rcases hi with rfl | ⟨d, rfl⟩ <;> obtain ⟨hf, rfl⟩ := underLatch_needMore ht ho hr
  · exact ⟨s, hf, rfl, rfl⟩
  · exact ⟨s.setFb (s.fb ++ d), hf, rfl, frFeedCmd_of_needMore ho hr⟩

end

/-- What an extraction without a frame leaves is short enough for a push of the largest size (R156). -/
theorem extract_needMore_length {c : Config} {fb : Bytes} (h : (extract c fb).frame = none) :
    (extract c fb).fb.length ≤ 65534 := by
  rcases extract_needMore_bound h with hl | ⟨_, hl⟩
  · omega
  · have := totalLength_lt (extract c fb).fb
    omega

/-- Fewer than 40 bytes are kept whole (R153). -/
theorem extract_of_short {c : Config} : ∀ {q : Bytes}, q.length < 40 → extract c q = ⟨q, none⟩
  | [], _ => rfl
  | _ :: _, h => if_pos (lacks_iff.mpr h)

/-- The loop of R153 from offset `i` on is the extraction of the bytes from there on, given the turns R155 allows it. -/
theorem extractLoop_eq_extract (fb : Bytes) : ∀ (n i : Nat), fb.length - i - 39 + 1 ≤ n →
    extractLoop fb n i = extract cfg (fb.drop i)
  | 0, _, hn => absurd hn (by omega)
  | n + 1, i, hn => by
    rcases Nat.lt_or_ge (fb.length - i) 40 with hshort | hlong
    · rw [extractLoop, if_pos hshort, extract_of_short (by rwa [List.length_drop])]
    · have hq : fb.drop i = fb[i] :: fb.drop (i + 1) := List.drop_eq_getElem_cons (by omega)
      have ih := extractLoop_eq_extract fb n (i + 1) (by omega)
      rw [extractLoop, hq, extract, ← hq, ih]
      simp only [lacks_iff, List.length_drop, slice_drop, ← declaredLen_eq, Memory.dropFront, List.drop_drop, hdrBytes,
        minFrame, Nat.add_zero]

/-- Settles O28: a push that fits leaves FB with the bytes at its end, and one that does not raises the error. -/
theorem frPushAppendsAllOrNothing : Obligations.FrPushAppendsAllOrNothing := by
  intro d s hf
  refine ⟨fun h => ⟨_, _, exec_frPush_fits hf h, rfl, rfl, ?_, ?_, fun i hi => ?_, fun i _ => ?_⟩, exec_frPush_overflow hf⟩
  · rw [List.length_append, le32_natBytes32 (by omega)]
  · exact List.length_append
  · exact Memory.readByte_append_left hi
  · rw [respond_fb, State.setFb_fb, Memory.readByte, List.getElem?_append_right (by omega), Nat.add_sub_cancel_left]

/-- Settles O29: the three ways an extraction ends (`extract_spec`), in the terms of R152. -/
theorem frPopStopsAtFirstHeader : Obligations.FrPopStopsAtFirstHeader := by
  intro s hf
  obtain ⟨i, hi, hall, hcase⟩ := extract_spec cfg s.fb
  simp only [← hdrOk_iff hi, ← declaredLen_eq, List.drop_drop] at hcase
  refine ⟨i, hi, fun j hj => ?_, ?_⟩
  · obtain ⟨h40, hno⟩ := hall j hj
    exact ⟨h40, mt (hdrOk_iff (by omega)).mp hno⟩
  · have hwait (e : extract cfg s.fb = ⟨s.fb.drop i, none⟩) : exec .frPop s =
        .next (respond .needMore (natBytes32 (s.fb.length - i)) [] { s with fb := s.fb.drop i }) := by
      rw [exec_frPop_of_waits hf e, List.length_drop]; rfl
    rcases hcase with ⟨hl, e⟩ | ⟨hh, hl, e⟩ | ⟨hh, hl, e⟩
    · exact .inl ⟨.inl hl, hwait e⟩
    · exact .inl ⟨.inr ⟨hh, hl⟩, hwait e⟩
    · refine .inr ⟨hh, by omega, ?_⟩
      rw [exec_frPop_of_frame hf e, List.length_drop, slice, Nat.add_sub_cancel_left]; rfl

/-- Settles O30: the loop from offset 0 is the extraction of all of FB. -/
theorem frPopRunsTheSourceLoop : Obligations.FrPopRunsTheSourceLoop := by
  intro s hf r hr
  have hx : extract cfg s.fb = r := by rw [hr, extractLoop_eq_extract s.fb _ 0 (by omega), List.drop_zero]
  obtain ⟨b, o⟩ := r
  refine ⟨fun hn => ?_, fun f hs => ?_⟩
  · obtain rfl : o = none := hn
    exact exec_frPop_of_waits hf hx
  · obtain rfl : o = some f := hs
    exact exec_frPop_of_frame hf hx

/-- Settles O31: `NEED_MORE` is the answer of an extraction without a frame, whose rest is bounded (R156). -/
theorem needMoreLeavesRoomForOnePush : Obligations.NeedMoreLeavesRoomForOnePush := by
  intro i s t r hi ht ho hr
  obtain ⟨v, hf, hv, rfl⟩ := needMore_is_pop hi ht ho hr
  have hn := frame_none_of_frPopCmd_needMore (hv ▸ ho) hr
  have hroom := extract_needMore_length hn
  rw [hdrOk_iff (Nat.zero_le _), declaredLen_eq, List.drop_zero, frPopCmd_fb]
  refine ⟨?_, hroom, fun d hd => ⟨_, exec_frPush_fits ?_ ?_, by rw [respond_fb, State.setFb_fb, frPopCmd_fb]⟩⟩
  · exact (extract_needMore_bound hn).imp_right fun ⟨hh, hl⟩ => ⟨hh, hl, totalLength_lt _⟩
  · rw [frPopCmd_fatal, hf]
  · rw [frPopCmd_fb]; omega

/-- Settles O32: both pop the buffer with the bytes appended, and FR.POP does the same whatever was answered before
(`exec_of_outbox`). -/
theorem frFeedIsPushThenPop : Obligations.FrFeedIsPushThenPop := by
  intro d s hf
  refine ⟨fun h => ?_, fun h => (underLatch_clear hf).trans (congrArg _ (frFeedCmd_overflow cfg h))⟩
  have hpop : exec .frPop (s.setFb (s.fb ++ d)) = .next (frPopCmd cfg (s.setFb (s.fb ++ d))) := exec_frPop hf
  have hfeed : exec (.frFeed d) s = .next (frPopCmd cfg (s.setFb (s.fb ++ d))) :=
    (underLatch_clear hf).trans (congrArg _ (frFeedCmd_fits cfg h))
  obtain ⟨r, ho⟩ : ∃ r, (frPopCmd cfg (s.setFb (s.fb ++ d))).outbox = s.outbox ++ [r] :=
    let ⟨_, _, _, ho⟩ := frPopCmd_response cfg (s.setFb (s.fb ++ d))
    ⟨_, ho⟩
  generalize frPopCmd cfg (s.setFb (s.fb ++ d)) = u at hpop hfeed ho
  refine ⟨_, _, r, u, exec_frPush_fits hf h, (exec_of_outbox hpop ho _).trans ?_, by rw [hfeed, ← ho]⟩
  rw [State.setFb_outbox, List.append_assoc]; rfl

/-- Settles O33: the command's own effect (`exec_frRst`), and its packet. -/
theorem frRstEmptiesBuffer : Obligations.FrRstEmptiesBuffer := ⟨fun _ hf => exec_frRst hf, rfl⟩

end Sys2Proof.Machine
end

section
/-! The receive procedure (43_framer R160, R161): the frames a byte string drains into are one relation `Drains`, which joins
over appended bytes; a run of pushes and pops drains the string its chunks join to. -/

namespace Sys2Proof.Machine

/-- Extracting from `fb` until no frame comes out returns the frames `fs` and leaves `rest`. -/
inductive Drains (c : Config) : Bytes → List Bytes → Bytes → Prop where
  | wait {fb rest : Bytes} : extract c fb = ⟨rest, none⟩ → Drains c fb [] rest
  | frame {fb fb' f rest : Bytes} {fs : List Bytes} : extract c fb = ⟨fb', some f⟩ → Drains c fb' fs rest →
      Drains c fb (f :: fs) rest

namespace Drains

variable {c : Config} {fb rest : Bytes} {fs : List Bytes}

/-- Draining has one result. -/
theorem unique (h : Drains c fb fs rest) {fs' : List Bytes} {rest' : Bytes} (h' : Drains c fb fs' rest') :
    fs = fs' ∧ rest = rest' := by
  induction h generalizing fs' with
  | wait e =>
    cases h' with
    | wait e' => cases e.symm.trans e'; exact ⟨rfl, rfl⟩
    | frame e' _ => cases e.symm.trans e'
  | frame e _ ih =>
    cases h' with
    | wait e' => cases e.symm.trans e'
    | frame e' h' =>
      cases e.symm.trans e'
      obtain ⟨rfl, rfl⟩ := ih h'
      exact ⟨rfl, rfl⟩

/-- Draining depends on what the first extraction makes of the bytes alone. -/
theorem of_extract_eq {fb' : Bytes} (h : Drains c fb fs rest) (e : extract c fb' = extract c fb) : Drains c fb' fs rest := by
  cases h with
  | wait e' => exact .wait (e.trans e')
  | frame e' h' => exact .frame (e.trans e') h'

/-- Bytes that come after a drain are drained behind what it left, as if they had been there from the start (R160). -/
theorem append (h : Drains c fb fs rest) {d rest' : Bytes} {fs' : List Bytes} (h' : Drains c (rest ++ d) fs' rest') :
    Drains c (fb ++ d) (fs ++ fs') rest' := by
  induction h with
  | @wait fb rest e =>
    have hx := extract_append_needMore d (c := c) (fb := fb) (by rw [e])
    rw [e] at hx
    exact h'.of_extract_eq hx
  | @frame fb fb' f rest fs e _ ih =>
    have hx := extract_append_frame d (c := c) (fb := fb) (f := f) (by rw [e])
    rw [e] at hx
    exact .frame hx (ih h')

/-- What is left when no frame comes out gives no frame again, and does not change. -/
theorem extract_rest (h : Drains c fb fs rest) : extract c rest = ⟨rest, none⟩ := by
  induction h with
  | @wait fb rest e =>
    have hx := extract_again (c := c) (fb := fb) (by rw [e])
    rwa [e] at hx
  | frame _ _ ih => exact ih

end Drains

/-- From `s` to `t` only `OK` and `NEED_MORE` were answered, and the latch is clear. -/
structure AnsweredNormally (s t : State) : Prop where
  fatal_clear : t.fatal = false
  responses : ∃ rs, t.outbox = s.outbox ++ rs ∧ ∀ r ∈ rs, r.sts = .ok ∨ r.sts = .needMore

theorem AnsweredNormally.refl {s : State} (hf : s.fatal = false) : AnsweredNormally s s :=
  ⟨hf, [], (List.append_nil _).symm, nofun⟩

theorem AnsweredNormally.trans {s t u : State} (h : AnsweredNormally s t) (h' : AnsweredNormally t u) :
    AnsweredNormally s u := by
  obtain ⟨rs, ho, hrs⟩ := h.responses
  obtain ⟨rs', ho', hrs'⟩ := h'.responses
  exact ⟨h'.fatal_clear, rs ++ rs', by rw [ho', ho, List.append_assoc],
    fun r hr => (List.mem_append.mp hr).elim (hrs r) (hrs' r)⟩

theorem AnsweredNormally.respond {s : State} {sts : Status} (hf : s.fatal = false) (hs : sts = .ok ∨ sts = .needMore)
    (res rdata b : Bytes) : AnsweredNormally s (respond sts res rdata (s.setFb b)) :=
  ⟨hf, _, rfl, fun _ hr => List.mem_singleton.mp hr ▸ hs⟩

/-- The last response delivered is `NEED_MORE`. -/
def LastIsNeedMore (s : State) : Prop := ∃ r, s.outbox.getLast? = some r ∧ r.sts = .needMore

theorem after_of_exec {i : Instr} {s t : State} (h : exec i s = .next t) : after i s = t := by rw [after, h]

theorem drain_of_waits {s : State} {b : Bytes} (n : Nat) (hf : s.fatal = false) (h : extract cfg s.fb = ⟨b, none⟩) :
    drain (n + 1) s = ([], respond .needMore (natBytes32 b.length) [] (s.setFb b)) := by
  simp [drain, after_of_exec (exec_frPop_of_waits hf h)]

theorem drain_of_frame {s : State} {b f : Bytes} (n : Nat) (hf : s.fatal = false) (h : extract cfg s.fb = ⟨b, some f⟩) :
    drain (n + 1) s = (f :: (drain n (respond .ok (natBytes32 b.length) f (s.setFb b))).1,
      (drain n (respond .ok (natBytes32 b.length) f (s.setFb b))).2) := by
  simp [drain, after_of_exec (exec_frPop_of_frame hf h)]

/-- FR.DRAIN, given more turns than FB has bytes, drains FB and ends with `NEED_MORE`: each frame takes bytes with it. -/
theorem drain_drains : ∀ (n : Nat) {s : State}, s.fatal = false → s.fb.length < n →
    Drains cfg s.fb (drain n s).1 (drain n s).2.fb ∧ AnsweredNormally s (drain n s).2 ∧ LastIsNeedMore (drain n s).2
  | 0, _, _, hn => absurd hn (Nat.not_lt_zero _)
  | n + 1, s, hf, hn => by
    cases hx : extract cfg s.fb with
    | mk b o =>
      cases o with
      | none =>
        rw [drain_of_waits n hf hx]
        exact ⟨.wait hx, .respond hf (.inr rfl) .., _, List.getLast?_concat .., rfl⟩
      | some f =>
        have hshorter : b.length + 44 ≤ s.fb.length := by
          have := ((extract_length cfg s.fb).2 f (by rw [hx])).1
          rwa [hx] at this
        obtain ⟨hd, ha, hl⟩ := drain_drains n (s := respond .ok (natBytes32 b.length) f (s.setFb b)) hf
          (show b.length < n by omega)
        rw [drain_of_frame n hf hx]
        exact ⟨.frame hx hd, .trans (.respond hf (.inl rfl) ..) ha, hl⟩

/-- The run of R160 from an FB that waits: it drains FB with the chunks behind it, its answers are `OK` and `NEED_MORE`, and
unless there was no chunk the last one is `NEED_MORE`. -/
theorem receive_drains : ∀ (ds : List Bytes) {s : State}, s.fatal = false → extract cfg s.fb = ⟨s.fb, none⟩ →
    (∀ d ∈ ds, d.length ≤ 65535) →
    Drains cfg (s.fb ++ ds.flatten) (receive ds s).1 (receive ds s).2.fb ∧ AnsweredNormally s (receive ds s).2 ∧
      (ds ≠ [] ∨ LastIsNeedMore s → LastIsNeedMore (receive ds s).2)
  | [], s, hf, hw, _ => ⟨.wait (by rwa [List.flatten_nil, List.append_nil]), .refl hf, by simp [receive]⟩
  | d :: ds, s, hf, hw, hds => by
    have hroom : s.fb.length ≤ 65534 := by
      have := extract_needMore_length (c := cfg) (fb := s.fb) (by rw [hw])
      rwa [hw] at this
    have hd := hds d List.mem_cons_self
    have hpush := after_of_exec (exec_frPush_fits hf (show s.fb.length + d.length ≤ 131072 by omega))
    have hpushed : AnsweredNormally s (after (.frPush d) s) := hpush ▸ .respond hf (.inl rfl) ..
    have hfb : (after (.frPush d) s).fb = s.fb ++ d := hpush ▸ rfl
    obtain ⟨hdrain, hdrained, hwaits⟩ := drain_drains _ hpushed.fatal_clear (Nat.lt_succ_self _)
    obtain ⟨hrest, hreceived, hlast⟩ := receive_drains ds hdrained.fatal_clear hdrain.extract_rest
      fun d' hd' => hds d' (List.mem_cons_of_mem _ hd')
    rw [List.flatten_cons, ← List.append_assoc, ← hfb]
    exact ⟨hdrain.append hrest, (hpushed.trans hdrained).trans hreceived, fun _ => hlast (.inr hwaits)⟩

/-- The run of R160 from an empty FB drains the string its chunks join to. -/
theorem receive_from_empty {ds : List Bytes} {s : State} (hf : s.fatal = false) (hfb : s.fb = [])
    (hds : ∀ d ∈ ds, d.length ≤ 65535) :
    Drains cfg ds.flatten (receive ds s).1 (receive ds s).2.fb ∧ AnsweredNormally s (receive ds s).2 ∧
      (ds ≠ [] → LastIsNeedMore (receive ds s).2) := by
  obtain ⟨hd, ha, hl⟩ := receive_drains ds hf (by rw [hfb]; rfl) hds
  rw [hfb, List.nil_append] at hd
  exact ⟨hd, ha, fun h => hl (.inl h)⟩

/-- Settles O35: both runs drain the same string, and draining has one result. -/
theorem chunkingInvariance : Obligations.ChunkingInvariance := by
  intro ds ds' s hf hfb hds hds' hjoin
  obtain ⟨hd, ha, hl⟩ := receive_from_empty hf hfb hds
  obtain ⟨hd', _, _⟩ := receive_from_empty hf hfb hds'
  obtain ⟨hframes, hrest⟩ := hd.unique (hjoin ▸ hd')
  exact ⟨hframes, hrest, ha.responses, hl⟩

/-- Garbage with no header in it is passed over, and the frame behind it is extracted whole (R161). -/
theorem extract_garbage_frame {g f : Bytes} (hh : hdrOk f 0) (hl : f.length = declaredLen f 0)
    (hg : ∀ j < g.length, ¬ hdrOk (g ++ f) j) : extract cfg (g ++ f) = ⟨[], some f⟩ := by
  have h44 : 44 ≤ f.length := hl ▸ hh.2.2.2
  have hhead : headAt cfg f := (hdrOk_iff (Nat.zero_le _)).mp hh
  have hskip : extract cfg (g ++ f) = extract cfg ((g ++ f).drop g.length) := by
    refine extract_skip fun j hj => ?_
    have hj40 : j + 40 ≤ (g ++ f).length := by rw [List.length_append]; omega
    exact ⟨hj40, mt (hdrOk_iff (by omega)).mpr (hg j hj)⟩
  rw [hskip, List.drop_left]
  exact extract_whole hhead (by rw [hl, declaredLen_eq, List.drop_zero])

/-- Settles O36: one extraction returns the frame and leaves nothing, so the string drains into that frame alone. -/
theorem garbageBeforeFrameIsDropped : Obligations.GarbageBeforeFrameIsDropped := by
  intro g f hh hl hg
  have hx := extract_garbage_frame hh hl hg
  refine ⟨fun ds s hf hfb hds hjoin => ?_, fun s hf hfb hlen => ?_, fun s hf hfb => ?_⟩
  · obtain ⟨hd, _, _⟩ := receive_from_empty hf hfb hds
    rw [hjoin] at hd
    exact hd.unique (.frame hx (.wait rfl))
  · refine ⟨_, exec_frPush_fits hf (by rw [hfb, List.length_nil]; omega), ?_⟩
    exact exec_frPop_of_frame hf (by rwa [respond_fb, State.setFb_fb, hfb])
  · exact exec_frPop_of_frame hf (by rwa [hfb])

end Sys2Proof.Machine
end

section
/-! The system commands (44_system R170 to R173): which key a step leaves, said once, and the STAT image read field by field. -/

namespace Sys2Proof.Machine

/-- What a step that is not a reset does to the key: it keeps it, loads it where there was none, or forgets it (R173). -/
theorem step_key_cases {s t : State} (ht : step s = .next t) (hr : ∀ rest, s.inbox ≠ .reset :: rest) :
    (t.ks = s.ks ∧ t.ksValid = s.ksValid) ∨
    (∃ c rest, s.inbox = .packet c :: rest ∧ decodeCmd c = .ok (.keyLoad t.ks) ∧ s.ksValid = false ∧ t.ksValid = true) ∨
    (∃ c rest, s.inbox = .packet c :: rest ∧ decodeCmd c = .ok .keyClr ∧ t.ksValid = false) := by
  rcases step_cases ht with ⟨_, rfl⟩ | ⟨rest, hq, _⟩ | ⟨c, rest, hq, _⟩
  · exact .inl ⟨rfl, rfl⟩
  · exact absurd hq (hr rest)
  · rcases packet_ends hq ht with ⟨e, _, rfl⟩ | ⟨i, sts, res, rdata, u, hi, rfl, ha⟩
    · exact .inl ⟨rfl, rfl⟩
    · rcases ha.key with hkeep | ⟨k, rfl, hfree, _, rfl, hv⟩ | ⟨rfl, _, hv⟩
      · exact .inl hkeep
      · exact .inr (.inl ⟨c, rest, hq, hi, hfree, hv⟩)
      · exact .inr (.inr ⟨c, rest, hq, hi, hv⟩)

/-- Settles O40: each of the three courses of KS_VALID is that of one case of `step_key_cases`, and the other two cases rule it
out. -/
theorem keyLifecycle : Obligations.KeyLifecycle := by
  intro s t ht hr
  rcases step_key_cases ht hr with ⟨hks, hv⟩ | ⟨c, rest, hq, hc, hs, hv⟩ | ⟨c, rest, hq, hc, hv⟩
  · rw [hv]
    exact ⟨fun _ _ => hks, fun h h' => absurd (h.symm.trans h') nofun, fun h h' => absurd (h.symm.trans h') nofun⟩
  · rw [hs, hv]
    exact ⟨nofun, fun _ _ => ⟨c, rest, hq, hc⟩, nofun⟩
  · rw [hv]
    exact ⟨fun _ => nofun, fun _ => nofun, fun _ _ => ⟨c, rest, hq, hc⟩⟩

theorem exec_keyLoad_badLength {k : Bytes} {s : State} (hf : s.fatal = false) (hv : s.ksValid = false)
    (hk : k.length ∉ cfg.params.keyLens) : exec (.keyLoad k) s = .next (raise .cryptoKeylen s) := by
  have hcmd : keyLoadCmd cfg k s = raise .cryptoKeylen s := by simp [keyLoadCmd, hv, hk]
  exact (underLatch_clear hf).trans (congrArg _ hcmd)

/-- Two bytes count any length up to 65535, least significant first. -/
theorem natBytes16_eq_pair {n : Nat} (h : n < 2 ^ 16) :
    ∃ d0 d1 : Byte, natBytes16 n = [d0, d1] ∧ d0.toNat + 256 * d1.toNat = n := by
  obtain ⟨d0, d1, e⟩ := List.length_eq_two.mp (natBytes16_length n)
  exact ⟨d0, d1, e, by rw [← le16_toNat d0 d1 [], ← e, le16_natBytes16 h]⟩

/-- Settles O37: a key present, a legal length and any other length are the three outcomes; the packet's length field is two
bytes. -/
theorem keyLoadInstallsOnce : Obligations.KeyLoadInstallsOnce := by
  refine ⟨fun k s hf => ?_, fun k hk => ?_⟩
  · split
    · next hv => exact exec_keyLoad_locked k hf hv
    · next hv =>
      have hfree : s.ksValid = false := Bool.eq_false_iff.mpr hv
      split
      · next hlen => exact exec_keyLoad_free hf hfree hlen
      · next hlen => exact exec_keyLoad_badLength hf hfree hlen
  · obtain ⟨d0, d1, e, hn⟩ := natBytes16_eq_pair (n := k.length) (by omega)
    have hpacket : encode (.keyLoad k) = [Opcode.keyLoad.code, modByte 0 0] ++ natBytes16 k.length ++ k := rfl
    exact ⟨d0, d1, by rw [hpacket, e]; rfl, hn⟩

/-- Settles O38: the command's own effect (`exec_keyClr`), and its packet. -/
theorem keyClrForgetsKey : Obligations.KeyClrForgetsKey := ⟨fun _ hf => exec_keyClr hf, rfl⟩

/-- The session key's length fits the one byte STAT has for it (R8, R24). -/
theorem State.Inv.ks_length_lt {s : State} (h : s.Inv) : s.ks.length < 256 := by
  cases hv : s.ksValid with
  | false => simp [h.ks_absent hv]
  | true =>
    have := (cfg.legal.keyLens_range _ (h.ks_legal hv)).2
    omega

/-- `FLAGS` as a number (R28). -/
theorem flagsByte_toNat (s : State) : (flagsByte s).toNat = s.ksValid.toNat + 2 * s.fatal.toNat := by
  cases hv : s.ksValid <;> cases hf : s.fatal <;> simp [flagsByte, hv, hf]

/-- The first field of STAT is the length of FB (R28). -/
theorem le32_statImage {s : State} (h : s.Inv) : (le32 (slice (statImage s) 0 4)).toNat = s.fb.length := by
  have hcap : s.fb.length ≤ 131072 := Memory.wf_iff.mp h.fb_cap
  have hslice : slice (statImage s) 0 4 = natBytes32 s.fb.length := rfl
  rw [hslice, le32_natBytes32 (by omega)]

/-- Settles O39: the latch does not refuse the command, and the invariant bounds the two lengths in the image. -/
theorem statRdShowsState : Obligations.StatRdShowsState := by
  refine ⟨fun s hs => ⟨statImage s, rfl, rfl, le32_statImage hs, ⟨_, rfl, ?_⟩, ⟨_, rfl, flagsByte_toNat s⟩, rfl, rfl⟩, rfl⟩
  rw [BitVec.toNat_ofNat, Nat.mod_eq_of_lt hs.ks_length_lt]

end Sys2Proof.Machine
end

section
/-! The port without a command to run: the wait (60_exceptions R190), and what the FATAL latch leaves of a packet (R185). -/

namespace Sys2Proof.Machine

/-- Settles O3: with an empty inbox the port's only move is the wait. -/
theorem idlePortChangesNothing : Obligations.IdlePortChangesNothing := by
  intro s hq
  unfold step portStep
  rw [hq]

/-- The latch refuses a packet before it is decoded (R183, R185). -/
theorem takePacket_latched {c : Bytes} {s : State} (hf : s.fatal = true) (hc : c.head? ≠ some 0x52) :
    takePacket c s = .next (raise .fatal s) := by
  have hrefuses : latchRefuses c s = true := by
    rw [latchRefuses, hf, Bool.true_and]
    exact bne_iff_ne.mpr hc
  exact if_pos hrefuses

/-- A packet that decodes and begins with STAT.RD's opcode is STAT.RD (R86). -/
theorem eq_statRd_of_head {c : Bytes} {i : Instr} (hi : decodeCmd c = .ok i) (hc : c.head? = some 0x52) : i = .statRd := by
  have hcode : i.opcode.code = Opcode.statRd.code := Option.some.inj ((decodeCmd_head hi).symm.trans hc)
  have hop : i.opcode = .statRd := Opcode.code_injective hcode
  cases i with
  | statRd => rfl
  | _ => cases hop

/-- A packet that is not legal has an error for its decoding (R89). -/
theorem decodeCmd_error_of_not_legal {c : Bytes} (hc : ¬ legalPacket c) : ∃ e, decodeCmd c = .error e := by
  cases hd : decodeCmd c with
  | error e => exact ⟨e, rfl⟩
  | ok i => exact absurd (legalPacket_iff.mpr ⟨i, hd⟩) hc

/-- Settles O6: a packet that is not STAT.RD's is refused before decoding (`takePacket_latched`), one that is decodes to
STAT.RD or not at all, and no packet clears FATAL (`packet_fatal`). -/
theorem fatalLatchRefusesAllButStatRd : Obligations.FatalLatchRefusesAllButStatRd := by
  intro s c rest hq hf
  refine ⟨fun hc => ?_, fun hc => ⟨fun hl => ?_, fun hl => ?_⟩, fun t ht => ?_⟩
  · exact ⟨_, (step_packet hq).trans (takePacket_latched hf hc), raise_of_not_fatal rfl _⟩
  · obtain ⟨i, hi⟩ := legalPacket_iff.mp hl
    obtain rfl := eq_statRd_of_head hi hc
    exact stepRunsDecodedCommand s c rest _ hq hi
  · obtain ⟨e, he⟩ := decodeCmd_error_of_not_legal hl
    exact ⟨_, (step_packet hq).trans (takePacket_error he (.inr hc)), raise_of_not_fatal rfl _⟩
  · obtain ⟨r, _, hfatal⟩ := packet_fatal hq ht
    rw [hfatal, hf, Bool.true_or]

end Sys2Proof.Machine
end

section
/-! Errors (60_exceptions R184, R187): what an error leaves, and which commands answer with `E_CRYPTO_KEYLEN`, read off the
status each command answers. -/

namespace Sys2Proof.Machine

/-- The fatal errors, as the statements spell them (R186). -/
theorem Status.isFatal_eq_decide (e : Status) : e.isFatal = decide (e = .cryptoKeylen ∨ e = .cryptoBlklen) := by
  cases e <;> rfl

/-- Settles O10: the step ended by raising the status it answers, since an answer without error has no error status. -/
theorem errorsChangeOnlyErrorState : Obligations.ErrorsChangeOnlyErrorState := by
  intro s t c rest r hq ht ho hr
  rcases packet_ends hq ht with ⟨e, _, rfl⟩ | ⟨i, sts, res, rdata, u, _, rfl, ha⟩
  · obtain rfl : r = ⟨e, flagsByte (raise e (s.setInbox rest)), [], []⟩ := raise_response ho
    rw [← Status.isFatal_eq_decide]
    rfl
  · rw [respond_response (s := s) ha.outbox ho] at hr
    exact absurd (hr.symm.trans ha.sts_normal) nofun

/-- The status of the last response delivered. -/
def State.lastStatus (s : State) : Option Status := s.outbox.getLast?.map Response.sts

@[simp] theorem respond_lastStatus (sts : Status) (res rdata : Bytes) (s : State) :
    (respond sts res rdata s).lastStatus = some sts := by simp [State.lastStatus]

@[simp] theorem raise_lastStatus (e : Status) (s : State) : (raise e s).lastStatus = some e := respond_lastStatus e [] [] _

theorem lastStatus_of_outbox {l : List Response} {t : State} {r : Response} (h : t.outbox = l ++ [r]) :
    t.lastStatus = some r.sts := by simp [State.lastStatus, h]

/-- The last response delivered has the status `E_CRYPTO_KEYLEN`. -/
def AnsweredKeylen (t : State) : Prop := t.lastStatus = some .cryptoKeylen

@[simp] theorem answeredKeylen_respond {sts : Status} {res rdata : Bytes} {u : State} :
    AnsweredKeylen (respond sts res rdata u) ↔ sts = .cryptoKeylen := by simp [AnsweredKeylen]

@[simp] theorem answeredKeylen_raise {e : Status} {u : State} : AnsweredKeylen (raise e u) ↔ e = .cryptoKeylen := by
  simp [AnsweredKeylen]

theorem respond_not_keylen {sts : Status} {res rdata : Bytes} {u : State} (h : sts ≠ .cryptoKeylen) :
    ¬ AnsweredKeylen (respond sts res rdata u) := mt answeredKeylen_respond.mp h

section
variable (c : Config) (s : State)

theorem ecbEncCmd_keylen_iff (k : CipherSlot) (p : Bytes) :
    AnsweredKeylen (ecbEncCmd c k p s) ↔ slotKey c k.slot s = none := by
  change _ ↔ cipherKey c k s = none
  unfold ecbEncCmd
  split <;> simp [*]

theorem ecbDecCmd_keylen_iff (k : CipherSlot) (ct : Bytes) :
    AnsweredKeylen (ecbDecCmd c k ct s) ↔ slotKey c k.slot s = none := by
  change _ ↔ cipherKey c k s = none
  unfold ecbDecCmd
  split
  · simp [*]
  · split
    · simp [*]
    · split <;> simp [*]

theorem frmEncCmd_keylen_iff (k : SignSlot) (v : VersionSel) (h : Hdesc) (p : Bytes) :
    AnsweredKeylen (frmEncCmd c k v h p s) ↔ slotKey c k.slot s = none := by
  change _ ↔ signKey c k s = none
  unfold frmEncCmd
  split
  · simp [*]
  · split <;> simp [*]

theorem sigGenCmd_keylen_iff (k : SignSlot) (d : Bytes) :
    AnsweredKeylen (sigGenCmd c k d s) ↔ slotKey c k.slot s = none := by
  change _ ↔ signKey c k s = none
  unfold sigGenCmd
  split <;> simp [*]

theorem sigChkCmd_keylen_iff (k : SignSlot) (d : Bytes) :
    AnsweredKeylen (sigChkCmd c k d s) ↔ slotKey c k.slot s = none := by
  change _ ↔ signKey c k s = none
  unfold sigChkCmd
  split
  · simp [*]
  · split <;> simp [*]

theorem keyLoadCmd_keylen_iff (k : Bytes) :
    AnsweredKeylen (keyLoadCmd c k s) ↔ s.ksValid = false ∧ k.length ∉ c.params.keyLens := by
  unfold keyLoadCmd
  split
  · next hv => simp [hv]
  · next hv =>
    have hfree : s.ksValid = false := Bool.eq_false_iff.mpr hv
    split <;> simp [*]

theorem hdrEncCmd_not_keylen (v : VersionSel) (h : Hdesc) : ¬ AnsweredKeylen (hdrEncCmd c v h s) := by
  unfold hdrEncCmd
  split <;> simp

theorem frmDecCmd_not_keylen (d : Bytes) : ¬ AnsweredKeylen (frmDecCmd d s) := by
  unfold frmDecCmd
  split <;> simp

theorem frPopCmd_not_keylen : ¬ AnsweredKeylen (frPopCmd c s) := by
  simp only [frPopCmd]
  split <;> simp

theorem frPushCmd_not_keylen (d : Bytes) : ¬ AnsweredKeylen (frPushCmd d s) := by
  unfold frPushCmd
  split <;> simp

theorem frFeedCmd_not_keylen (d : Bytes) : ¬ AnsweredKeylen (frFeedCmd c d s) := by
  unfold frFeedCmd
  split
  · simp
  · exact frPopCmd_not_keylen c _

end

/-- The two causes of `E_CRYPTO_KEYLEN` (R187). -/
def KeylenCause (i : Instr) (s : State) : Prop :=
  (usesSession i ∧ s.ksValid = false) ∨ ∃ k, i = .keyLoad k ∧ s.ksValid = false ∧ k.length ∉ cfg.params.keyLens

/-- A slot has no key exactly when it is SESSION and `KS_VALID = 0` (R23, R24). -/
theorem slotKey_eq_none_iff {c : Config} {k : KeySlot} {s : State} :
    slotKey c k s = none ↔ k = .session ∧ s.ksValid = false := by
  cases k <;> simp [slotKey]

section
variable {i : Instr} {s : State}

/-- A command other than KEY.LOAD that names slot `k` has a cause exactly when that slot has no key. -/
theorem keylenCause_iff_slotKey {k : KeySlot} (hk : i.ksel = k.ksel) (hi : ∀ d, i ≠ .keyLoad d) :
    KeylenCause i s ↔ slotKey cfg k s = none := by
  have hslot : usesSession i ↔ k = .session := by
    rw [usesSession, hk]
    cases k <;> decide
  have hload : ¬ ∃ d, i = .keyLoad d ∧ s.ksValid = false ∧ d.length ∉ cfg.params.keyLens := fun ⟨d, h, _⟩ => hi d h
  rw [KeylenCause, or_iff_left hload, hslot, slotKey_eq_none_iff]

/-- A command that uses no slot and is not KEY.LOAD has no cause. -/
theorem not_keylenCause (hk : i.ksel = 0) (hi : ∀ d, i ≠ .keyLoad d) : ¬ KeylenCause i s :=
  fun h => nomatch (keylenCause_iff_slotKey (k := .master) hk hi).mp h

theorem keylenCause_keyLoad_iff {k : Bytes} :
    KeylenCause (.keyLoad k) s ↔ s.ksValid = false ∧ k.length ∉ cfg.params.keyLens := by
  have hslot : ¬ usesSession (.keyLoad k) := (by decide : (0 : BitVec 2) ≠ KeySlot.session.ksel)
  simp [KeylenCause, hslot]

/-- With the latch clear a command answers what its plain effect answers. -/
theorem answeredKeylen_of_underLatch {t u : State} (hf : s.fatal = false) (h : underLatch s u = .next t) :
    AnsweredKeylen t ↔ AnsweredKeylen u := by
  rw [Host.Outcome.next.inj ((underLatch_clear hf).symm.trans h)]

/-- A command that uses slot `k`, with the effect `u` that answers `E_CRYPTO_KEYLEN` when the slot has no key. -/
theorem keylen_iff_of_slotKey {k : KeySlot} {t u : State} (hf : s.fatal = false) (h : underLatch s u = .next t)
    (hu : AnsweredKeylen u ↔ slotKey cfg k s = none) (hk : i.ksel = k.ksel) (hi : ∀ d, i ≠ .keyLoad d) :
    AnsweredKeylen t ↔ KeylenCause i s :=
  (answeredKeylen_of_underLatch hf h).trans (hu.trans (keylenCause_iff_slotKey hk hi).symm)

/-- A command that uses no slot, with the effect `u` that never answers `E_CRYPTO_KEYLEN`. -/
theorem keylen_iff_of_no_slot {t u : State} (hf : s.fatal = false) (h : underLatch s u = .next t)
    (hu : ¬ AnsweredKeylen u) (hk : i.ksel = 0) (hi : ∀ d, i ≠ .keyLoad d) : AnsweredKeylen t ↔ KeylenCause i s :=
  (answeredKeylen_of_underLatch hf h).trans (iff_of_false hu (not_keylenCause hk hi))

/-- With the latch clear a command answers `E_CRYPTO_KEYLEN` exactly when it has one of the two causes (R187). -/
theorem exec_keylen_iff {t : State} (hf : s.fatal = false) (ht : exec i s = .next t) :
    AnsweredKeylen t ↔ KeylenCause i s := by
  cases i with
  | ecbEnc k p => exact keylen_iff_of_slotKey hf ht (ecbEncCmd_keylen_iff cfg s k p) rfl nofun
  | ecbDec k ct => exact keylen_iff_of_slotKey hf ht (ecbDecCmd_keylen_iff cfg s k ct) rfl nofun
  | frmEnc k v h p => exact keylen_iff_of_slotKey hf ht (frmEncCmd_keylen_iff cfg s k v h p) rfl nofun
  | sigGen k d => exact keylen_iff_of_slotKey hf ht (sigGenCmd_keylen_iff cfg s k d) rfl nofun
  | sigChk k d => exact keylen_iff_of_slotKey hf ht (sigChkCmd_keylen_iff cfg s k d) rfl nofun
  | keyLoad k =>
    rw [answeredKeylen_of_underLatch hf ht, keyLoadCmd_keylen_iff, keylenCause_keyLoad_iff]
  | hdrEnc v h => exact keylen_iff_of_no_slot hf ht (hdrEncCmd_not_keylen cfg s v h) rfl nofun
  | frmDec d => exact keylen_iff_of_no_slot hf ht (frmDecCmd_not_keylen s d) rfl nofun
  | frPush d => exact keylen_iff_of_no_slot hf ht (frPushCmd_not_keylen s d) rfl nofun
  | frPop => exact keylen_iff_of_no_slot hf ht (frPopCmd_not_keylen cfg s) rfl nofun
  | frFeed d => exact keylen_iff_of_no_slot hf ht (frFeedCmd_not_keylen cfg s d) rfl nofun
  | frRst => exact keylen_iff_of_no_slot hf ht (respond_not_keylen nofun) rfl nofun
  | keyClr => exact keylen_iff_of_no_slot hf ht (respond_not_keylen nofun) rfl nofun
  | statRd =>
    cases ht
    exact iff_of_false (respond_not_keylen nofun) (not_keylenCause rfl nofun)

end

/-- Settles O42: the response's status is the last one delivered (`lastStatus_of_outbox`), and `exec_keylen_iff` says when it
is `E_CRYPTO_KEYLEN`. -/
theorem keylenErrorHasTwoCauses : Obligations.KeylenErrorHasTwoCauses := by
  intro i s t r hf ht ho
  have hstatus : AnsweredKeylen t ↔ r.sts = .cryptoKeylen := by
    rw [AnsweredKeylen, lastStatus_of_outbox ho, Option.some_inj]
  exact hstatus.symm.trans (exec_keylen_iff hf ht)

end Sys2Proof.Machine
end

section
/-! Reset between commands (70_reset_and_hazards R200). -/

namespace Sys2Proof.Machine

/-- A step on a reset event. -/
theorem step_reset {s : State} {rest : List PortEvent} (h : s.inbox = .reset :: rest) :
    step s = .next (applyReset (s.setInbox rest)) := by
  unfold step portStep
  rw [h]
  rfl

/-- Settles O2: the step is `applyReset`, whose components are those of `State.reset` (`resetLeavesR31Values`) and whose port
is the state's own without the event. -/
theorem resetEventRestoresResetValues : Obligations.ResetEventRestoresResetValues := by
  intro s rest hq
  obtain ⟨hfb, hks, hvalid, hfatal, herr⟩ := resetLeavesR31Values
  exact ⟨applyReset (s.setInbox rest), step_reset hq, hfb, hks, hvalid, hfatal, herr, rfl, rfl⟩

end Sys2Proof.Machine
end
